-- ==== Sys2Proof/Word.lean ====
section
/-!
DEFINITION. The words HPIR moves (rules R21, R23, R40, R43) and the enumerations of its state
registers (rules R25, R28, R30, R35). The enumerations are inductive types, as rule R49 allows; their
index encoding and their frame codes are in Machine/Tables.lean.
-/

namespace Sys2Proof

/-- One unsigned byte of the frame buffer `F` (R23). -/
abbrev Byte := BitVec 8

/-- One sample of the sample buffer `S`: an unsigned 32-bit number of microseconds (R21). -/
abbrev Sample := BitVec 32

/-- A BinaryFrame: exactly eighteen bytes (R23, R83). -/
abbrev Frame := Vector Byte 18

/-- The domain of `ST.mode`, in the order of R49. -/
inductive Mode where
  | auto | heat | dry | cool
deriving DecidableEq, Repr

/-- The domain of `ST.wideVane`, in the order of R49. -/
inductive WideVane where
  | leftEnd | left | middle | right | rightEnd | sides | swing
deriving DecidableEq, Repr

/-- The domain of `ST.vane`, in the order of R49. -/
inductive Vane where
  | upEnd | up | middle | down | downEnd | swing | auto
deriving DecidableEq, Repr

/-- The domain of `ST.timerProgram`, in the order of R49; `stop` is the value the spec calls `end`
(a reserved word of Lean). -/
inductive TimerProgram where
  | none | start | stop | startAndEnd
deriving DecidableEq, Repr

end Sys2Proof
end

