-- ==== Sys2Proof/Config.lean ====
section
/-!
DEFINITION. The configuration of HPIR (rules R6, R8, R46, R65, R96): the parameters that are fixed before
reset and that no rule changes, and the free values: constants without a body that stand for what the
spec leaves unspecified (rules R50, R219, R253; file 93, U1 to U3).
-/

namespace Sys2Proof

/-- The byte order of a packed sample at the host's device boundary (R65). -/
inductive ByteOrder where
  | little | big
deriving DecidableEq, Repr

/-- The open parameters of HPIR (R6, R8, R96, R65; file 93, U11). The timing constants are numbers of
microseconds below 2^32 by their type (U9). Log 2 says why the configuration stands in State. -/
structure Config where
  /-- `T_HDR_MARK`, header mark (R6). -/
  tHdrMark : Sample
  /-- `T_HDR_SPACE`, header space (R6). -/
  tHdrSpace : Sample
  /-- `T_BIT_MARK`, bit mark (R6). -/
  tBitMark : Sample
  /-- `T_ZERO_SPACE`, the space of a zero bit (R6). -/
  tZeroSpace : Sample
  /-- `T_ONE_SPACE`, the space of a one bit (R6). -/
  tOneSpace : Sample
  /-- `T_RPT_MARK`, repeat mark (R6). -/
  tRptMark : Sample
  /-- `T_RPT_SPACE`, repeat space (R6). -/
  tRptSpace : Sample
  /-- `S_CAP`, the capacity of the sample buffer in samples (R8). -/
  sCap : Nat
  /-- `TP_START`, the byte-13 code of the timer program `start` (R96). -/
  tpStart : Byte
  /-- `TP_END`, the byte-13 code of the timer program `end` (R96). -/
  tpEnd : Byte
  /-- `TP_BOTH`, the byte-13 code of the timer program `start-and-end` (R96). -/
  tpBoth : Byte
  /-- `SAMPLE_BYTE_ORDER`, a property of the host that no rule reads (R65). -/
  sampleByteOrder : ByteOrder
deriving DecidableEq, Repr

/-- REFCFG with the reference values of the other parameters (R6, R8, R96).
PRESUMED (the spec marks them 'from general knowledge'), and DESIGN CHOICE for the byte order: log 2. -/
def Config.ref : Config where
  tHdrMark := 3400#32
  tHdrSpace := 1750#32
  tBitMark := 450#32
  tZeroSpace := 420#32
  tOneSpace := 1300#32
  tRptMark := 440#32
  tRptSpace := 17100#32
  sCap := 1024
  tpStart := 0x05#8
  tpEnd := 0x03#8
  tpBoth := 0x07#8
  sampleByteOrder := .little

/-- A byte the spec leaves unspecified: byte `i` of the draw numbered `draw` (log 4). -/
opaque Config.freeByte (draw i : Nat) : Byte

/-- A sample the spec leaves unspecified: index `i` of the draw numbered `draw` (log 4). -/
opaque Config.freeSample (draw i : Nat) : Sample

/-- The hour on an input port the host has not driven yet (log 6). -/
opaque Config.undrivenHour : BitVec 5

/-- The minute on an input port the host has not driven yet (log 6). -/
opaque Config.undrivenMinute : BitVec 6

/-- Eighteen unspecified bytes: the contents of `F` after reset (R50) and after a failing PDEC or FENC
(R219). -/
@[irreducible] def Config.freeFrame (draw : Nat) : Frame :=
  Vector.ofFn fun i => Config.freeByte draw i.val

end Sys2Proof
end

