-- ==== Sys2Proof/Syntax.lean ====
section
/-!
DEFINITION. The commands of HPIR (rule R80): one constructor per row of spec/opcode_table.json. A
command word has no operand field (rule R81), so no constructor has an argument.
-/

namespace Sys2Proof

/-- The seven commands of R80. Each has fixed, implicit operands (R81). -/
inductive Instr where
  /-- NOP: nothing but `STATUS.ERR <- 0` (R200). -/
  | nop
  /-- CKGEN: checksum generate (R121). -/
  | ckgen
  /-- CKVER: checksum verify (R122). -/
  | ckver
  /-- FENC: frame encode (R123 to R127). -/
  | fenc
  /-- FDEC: frame decode (R128 to R142). -/
  | fdec
  /-- PENC: pulse encode (R160, R161). -/
  | penc
  /-- PDEC: pulse decode (R162 to R170). -/
  | pdec
deriving DecidableEq, Repr

/-- Every command, in the order of R80. -/
def Instr.all : List Instr := [.nop, .ckgen, .ckver, .fenc, .fdec, .penc, .pdec]

end Sys2Proof
end

