-- ==== Sys2Proof/WellFormed.lean ====
section
/-!
DEFINITION. What is well formed: a command word (rules R81, R82) and a configuration (file 93, U9; rules
R8, R96). A command itself has no operand, so every command is well formed.
-/

namespace Sys2Proof

/-- The reserved field `rsv` of a command word, bits 7:4 (R81). -/
def wordRsv (w : Byte) : BitVec 4 := w.extractLsb' 4 4

/-- The opcode field `op` of a command word, bits 3:0 (R81). -/
def wordOp (w : Byte) : BitVec 4 := w.extractLsb' 0 4

/-- A command word is legal when `rsv` is 0 and `op` is one of the seven opcodes (R81, R82). -/
def wordWellFormed (w : Byte) : Bool := wordRsv w == 0#4 && wordOp w ≤ 6#4

/-- Every command is well formed: it has no register field, no immediate and no mode bit (R81). -/
def Instr.wellFormed : Instr → Bool
  | .nop | .ckgen | .ckver | .fenc | .fdec | .penc | .pdec => true

/-- The sample buffer holds a whole train (R8). -/
def Config.capacityOk (c : Config) : Bool := 583 ≤ c.sCap

/-- The three open byte-13 codes are distinct and none is 0x00 (R96, U9). -/
def Config.timerCodesOk (c : Config) : Bool :=
  c.tpStart != 0x00#8 && c.tpEnd != 0x00#8 && c.tpBoth != 0x00#8 &&
    c.tpStart != c.tpEnd && c.tpStart != c.tpBoth && c.tpEnd != c.tpBoth

/-- A configuration of HPIR (U9): anything else is refused, it is no configuration (log 3). -/
def Config.wf (c : Config) : Bool := c.capacityOk && c.timerCodesOk

end Sys2Proof
end

