-- ==== Sys2Proof/Decode.lean ====
section
/-!
DEFINITION. The command decoder (rules R80 to R82), total on every byte and rejecting the reserved words
by name, and the encoder written from the same table.
-/

namespace Sys2Proof

/-- Why a command word has no command. -/
inductive DecodeError where
  /-- A reserved word: not one of 0x00 to 0x06 (R82). -/
  | reservedWord (w : Byte)
deriving DecidableEq, Repr

/-- The command words of R80, one row of spec/opcode_table.json each (mask 0xFF: the whole byte). -/
def opcodeTable : List (Byte × Instr) :=
  [(0x00#8, .nop), (0x01#8, .ckgen), (0x02#8, .ckver), (0x03#8, .fenc), (0x04#8, .fdec),
    (0x05#8, .penc), (0x06#8, .pdec)]

/-- The command of a word, selected by the whole byte (R81); every other word is reserved (R82). -/
def decode (w : Byte) : Except DecodeError Instr :=
  match opcodeTable.find? (fun row => row.1 == w) with
  | some row => .ok row.2
  | none => .error (.reservedWord w)

/-- The word of a command (R80). -/
def encode : Instr → Byte
  | .nop => 0x00#8
  | .ckgen => 0x01#8
  | .ckver => 0x02#8
  | .fenc => 0x03#8
  | .fdec => 0x04#8
  | .penc => 0x05#8
  | .pdec => 0x06#8

/-- The command word in a number of `nbits` bits: its lowest byte, the bits above `nbits` being 0. -/
def firstWord (nbits w : Nat) : Byte := BitVec.ofNat 8 (w % 2 ^ nbits)

/-- The command the decoder reads from a word numbered as spec/opcode_table.json numbers it. -/
def decodeTableWord (nbits w : Nat) : Option Instr :=
  match decode (firstWord nbits w) with
  | .ok i => some i
  | .error _ => none

end Sys2Proof
end

