-- ==== Sys2Proof/Machine/Flags.lean ====
section
/-!
DEFINITION. The error kinds of rule R210, their numeric codes in `STATUS.ERR` (rule R211), and the code
of an outcome (rule R12). `STATUS.ERR` is the only flag of HPIR (rule R42).
-/

namespace Sys2Proof.Machine

/-- The error kinds of R210. -/
inductive ErrKind where
  | malformedHeader
  | invalidField
  | inconsistentMode
  | inconsistentState
  | badMark
  | badTiming
  | checksumError
  | repeatMismatch
  | noHeaderFound
  | noValidFrame
  | invalidLength
  | preconditionViolation
  | illegalCommand
deriving DecidableEq, Repr

/-- `STATUS.ERR` of the outcome `Ok` (R211). -/
def okCode : Byte := 0#8

/-- `STATUS.ERR` of the outcome `Err K` (R211). -/
def ErrKind.code : ErrKind → Byte
  | .malformedHeader => 1#8
  | .invalidField => 2#8
  | .inconsistentMode => 3#8
  | .inconsistentState => 4#8
  | .badMark => 5#8
  | .badTiming => 6#8
  | .checksumError => 7#8
  | .repeatMismatch => 8#8
  | .noHeaderFound => 9#8
  | .noValidFrame => 10#8
  | .invalidLength => 11#8
  | .preconditionViolation => 12#8
  | .illegalCommand => 13#8

/-- A structural failure: `BadMark` or `BadTiming`, the only kinds ever suppressed (R166, R217). -/
def ErrKind.isStructural : ErrKind → Bool
  | .badMark | .badTiming => true
  | .malformedHeader | .invalidField | .inconsistentMode | .inconsistentState | .checksumError
  | .repeatMismatch | .noHeaderFound | .noValidFrame | .invalidLength | .preconditionViolation
  | .illegalCommand => false

/-- `require b k`: go on when `b` holds, else end with `Err k` (the spec's `if not b then raise k`). -/
def require (b : Bool) (k : ErrKind) : Except ErrKind Unit :=
  match b with
  | true => .ok ()
  | false => .error k

/-- `orRaise o k`: the value of a lookup, or `Err k` when no key has the code (R11). -/
def orRaise {α : Type} (o : Option α) (k : ErrKind) : Except ErrKind α :=
  match o with
  | some a => .ok a
  | none => .error k

end Sys2Proof.Machine
end

