-- ==== Sys2Proof/Machine/State.lean ====
section
/-!
DEFINITION. The state of HPIR as plain data (rules R20 to R51), the host's side of it (rule R9; log 1), the
reset state (rules R50, R240), and the reasons a step can stop.
-/

namespace Sys2Proof.Machine

/-- `ST.clockSetting` (R31): `value` is meaningful only when `auto` is false. -/
structure ClockSetting where
  auto : Bool
  value : Byte
deriving DecidableEq, Repr

/-- `ST.lastObservedClock` (R32): `value` is meaningful only when `valid` is true. -/
structure LastObservedClock where
  valid : Bool
  value : Byte
deriving DecidableEq, Repr

/-- The sixteen OperatingState registers (R24 to R39). -/
structure OperatingState where
  on : Bool
  mode : Mode
  isee : Bool
  temperature : Byte
  wideVane : WideVane
  fanSpeed : Byte
  vane : Vane
  clockSetting : ClockSetting
  lastObservedClock : LastObservedClock
  timerEndTime : Byte
  timerStartTime : Byte
  timerProgram : TimerProgram
  econoCool : Bool
  longMode : Bool
  cleanMode : Bool
  plasma : Bool
deriving DecidableEq, Repr

/-- One written element of the sample buffer `S` (R21). `byHost` says that the host, and not PENC,
wrote it last: U2 keeps such an element where it leaves others unspecified (log 7). -/
structure SampleCell where
  index : Nat
  value : Sample
  byHost : Bool
deriving DecidableEq, Repr

/-- The fields of the ST registers, as the host names them (R48). -/
inductive StField where
  | on | mode | isee | temperature | wideVane | fanSpeed | vane | clockAuto | clockValue
  | lastObservedValid | lastObservedValue | timerEndTime | timerStartTime | timerProgram
  | econoCool | longMode | cleanMode | plasma
deriving DecidableEq, Repr

/-- A host write of one field of an ST register, with a value of the field's width (R24 to R39);
enumerations are written by index (R49). -/
inductive StWrite where
  | on (v : Bool)
  | mode (index : BitVec 2)
  | isee (v : Bool)
  | temperature (v : Byte)
  | wideVane (index : BitVec 3)
  | fanSpeed (v : Byte)
  | vane (index : BitVec 3)
  | clockAuto (v : Bool)
  | clockValue (v : Byte)
  | lastObservedValid (v : Bool)
  | lastObservedValue (v : Byte)
  | timerEndTime (v : Byte)
  | timerStartTime (v : Byte)
  | timerProgram (index : BitVec 2)
  | econoCool (v : Bool)
  | longMode (v : Bool)
  | cleanMode (v : Bool)
  | plasma (v : Bool)
deriving DecidableEq, Repr

/-- The elements the host can read (R48, R60). -/
inductive Element where
  | sample (i : Nat)
  | slen
  | frame (i : Nat)
  | st (f : StField)
  | tol
  | cmd
  | status
deriving DecidableEq, Repr

/-- One move of the host (R9, R48, R204, R240). -/
inductive HostMove where
  /-- `S[i] <- v`. -/
  | writeSample (i : Nat) (v : Sample)
  /-- `SLEN <- n`. -/
  | writeSlen (n : Nat)
  /-- `F[i] <- v`. -/
  | writeFrame (i : Nat) (v : Byte)
  /-- `ST.f <- v`. -/
  | writeSt (w : StWrite)
  /-- `TOL <- v`. -/
  | writeTol (v : BitVec 16)
  /-- A write of the read-only register `STATUS`. -/
  | writeStatus (v : Byte)
  /-- `CMD <- w`: issue a command (R204). -/
  | command (w : Byte)
  /-- The host reads `STATUS` and issues `w` only if `STATUS.ERR = 0` (R108, R202, R203; log 13). -/
  | commandIfOk (w : Byte)
  /-- The host drives the wall-clock ports `WC_HOUR`, `WC_MIN` (R43, R254). -/
  | driveClock (hour : BitVec 5) (minute : BitVec 6)
  /-- The host reads an element (R67). -/
  | read (e : Element)
  /-- The host applies reset (R240). -/
  | reset
deriving DecidableEq, Repr

/-- The host's side: what it drives, what it will do and what it last read (log 1, 6, 8). -/
structure HostSide where
  /-- `WC_HOUR`, an input port (R43). -/
  wcHour : BitVec 5
  /-- `WC_MIN`, an input port (R43). -/
  wcMin : BitVec 6
  /-- The host's moves not yet made, the next one first (log 1). -/
  pending : List HostMove
  /-- The value the host's last read returned (log 8). -/
  lastRead : Option Nat
deriving DecidableEq, Repr

/-- The state of the model: the elements of R20, the configuration (R46; log 2), the host's side, and
the counters of the free values (log 4). -/
structure State where
  /-- The configuration; no step changes it (R46; log 2). -/
  cfg : Config
  /-- The written elements of `S`, by rising index (R21; log 9). -/
  samples : List SampleCell
  /-- The draw that supplies the samples nothing has written since reset (log 5). -/
  sampleDraw : Nat
  /-- The draw that supplies what a host read of `ST.clockSetting.value` returns while `auto` is 1, steady
  between two host writes of `ST.clockSetting` (R67, U8; log 8). -/
  clockDraw : Nat
  /-- `SLEN` (R22). -/
  slen : Nat
  /-- `F[0..17]` (R23). -/
  frame : Frame
  /-- `ST.on` to `ST.plasma` (R24 to R39). -/
  st : OperatingState
  /-- `TOL` (R40). -/
  tol : BitVec 16
  /-- `STATUS`, all of it the field `ERR` (R42). -/
  status : Byte
  /-- The number of the next unused free draw (log 4). -/
  draws : Nat
  /-- The host's side (log 1). -/
  host : HostSide
deriving DecidableEq, Repr

/-- HPIR has no fault that stops it: a failing command ends `Err K` and the machine goes on (R12, R219).
So there is no constructor. -/
inductive Fault where
deriving DecidableEq, Repr

/-- Why a step has no next state. -/
inductive Refusal where
  /-- Raised by exec's arm of a command without a meaning (there is none). Safe. -/
  | notModelled (mnemonic : String)
  /-- Raised by a host write of the reserved index 7 to `ST.wideVane` or `ST.vane` (R49, U5). Safe. -/
  | reservedIndex
  /-- Raised by a host write of `ST.lastObservedClock` or `STATUS` (R32, R42, U5). Safe. -/
  | readOnlyRegister
  /-- Raised by a host write of `SLEN` above `S_CAP` (R22, U7). Safe. -/
  | slenBeyondCapacity
  /-- Raised by a host access to `S[i]` or `F[i]` outside the space (R60, U7). Safe. -/
  | noSuchElement
deriving DecidableEq, Repr

/-- The OperatingState after reset (R50): "off, auto mode, 20°C, middle wide-vane, auto fan, auto vane,
auto clock, no timers, no special modes". The two values R50 calls unspecified are free (log 5). -/
def OperatingState.reset (draw : Nat) : OperatingState where
  on := false
  mode := .auto
  isee := false
  temperature := 20#8
  wideVane := .middle
  fanSpeed := 0#8
  vane := .auto
  clockSetting := ⟨true, Config.freeByte draw 18⟩
  lastObservedClock := ⟨false, Config.freeByte draw 19⟩
  timerEndTime := 0#8
  timerStartTime := 0#8
  timerProgram := .none
  econoCool := false
  longMode := false
  cleanMode := false
  plasma := false

/-- The state after reset (R50, R240) for a configuration, a free draw and a host's side, which reset
does not change (log 14). -/
def State.resetWith (c : Config) (draw : Nat) (h : HostSide) : State where
  cfg := c
  samples := []
  sampleDraw := draw
  clockDraw := draw
  slen := 0
  frame := Config.freeFrame draw
  st := OperatingState.reset draw
  tol := 300#16
  status := 0#8
  draws := draw + 1
  host := h

/-- The host before its first move: no moves, the ports not driven (log 1, 6). -/
def HostSide.initial : HostSide where
  wcHour := Config.undrivenHour
  wcMin := Config.undrivenMinute
  pending := []
  lastRead := none

/-- The machine right after reset, in the reference configuration (R50, R240; log 2). -/
def State.reset : State := State.resetWith Config.ref 0 HostSide.initial

end Sys2Proof.Machine
end

