-- ==== Sys2Proof/Machine/Tables.lean ====
section
/-!
DEFINITION. The code tables of the frame (rules R85 to R98) and the index encoding of the enumeration
registers (rule R49). Each table is a function from keys to codes and a list of its keys, so that
encoding and decoding read the same rows.
-/

namespace Sys2Proof.Machine

/-- `lookup(T, c)` of R11: the key of the table whose code equals `c`, or none. -/
def lookup {α : Type} {n : Nat} (keys : List α) (code : α → BitVec n) (c : BitVec n) : Option α :=
  keys.find? fun k => code k == c

/-- The fixed preamble, bytes 0 to 4 (R85). -/
def preamble : List Byte := [0x23#8, 0xCB#8, 0x26#8, 0x01#8, 0x00#8]

/-- Byte 5: "`0x20` if `on` else `0x00`" (R86). -/
def powerCode : Bool → Byte
  | true => 0x20#8
  | false => 0x00#8

/-- The keys of `powerCode`. -/
def powerKeys : List Bool := [true, false]

/-- `MODE_CODE`, the mode code of byte 6 (R87, R124). -/
def modeCode : Mode → Byte
  | .auto => 0x20#8
  | .heat => 0x08#8
  | .dry => 0x10#8
  | .cool => 0x18#8

/-- The keys of the mode tables, in the order of R49. -/
def modeKeys : List Mode := [.auto, .heat, .dry, .cool]

/-- `MODE2_CODE`, the second mode code, of byte 8 (R89, R124); auto and cool share one. -/
def mode2Code : Mode → Byte
  | .auto => 0x06#8
  | .heat => 0x00#8
  | .dry => 0x02#8
  | .cool => 0x06#8

/-- `WVANE_CODE`, the wide-vane code of byte 8 (R89, R124). -/
def wideVaneCode : WideVane → Byte
  | .leftEnd => 0x10#8
  | .left => 0x20#8
  | .middle => 0x30#8
  | .right => 0x40#8
  | .rightEnd => 0x50#8
  | .sides => 0x80#8
  | .swing => 0xC0#8

/-- The keys of the wide-vane tables, in the order of R49. -/
def wideVaneKeys : List WideVane := [.leftEnd, .left, .middle, .right, .rightEnd, .sides, .swing]

/-- `VANE_CODE`, the vane code of byte 9 (R90, R124). -/
def vaneCode : Vane → Byte
  | .upEnd => 0x48#8
  | .up => 0x50#8
  | .middle => 0x58#8
  | .down => 0x60#8
  | .downEnd => 0x68#8
  | .swing => 0x78#8
  | .auto => 0x40#8

/-- The keys of the vane tables, in the order of R49. -/
def vaneKeys : List Vane := [.upEnd, .up, .middle, .down, .downEnd, .swing, .auto]

/-- The vane of a byte-9 vane field: the seven codes, and 0x00 read as auto (R90, R135). -/
def vaneOfCode (v : Byte) : Option Vane :=
  if v = 0x00#8 then some .auto else lookup vaneKeys vaneCode v

/-- `TIMERPROG_CODE`, the byte-13 code table; three of its codes are parameters (R96). -/
def timerProgramCode (c : Config) : TimerProgram → Byte
  | .none => 0x00#8
  | .start => c.tpStart
  | .stop => c.tpEnd
  | .startAndEnd => c.tpBoth

/-- The keys of the timer-program tables, in the order of R49. -/
def timerProgramKeys : List TimerProgram := [.none, .start, .stop, .startAndEnd]

/-- A flag's code: `code` if the flag is 1, else 0x00 (R87, R97, R98). -/
def flagCode (code : Byte) : Bool → Byte
  | true => code
  | false => 0x00#8

/-- The index of a mode (R49). -/
def modeIndex : Mode → BitVec 2
  | .auto => 0#2
  | .heat => 1#2
  | .dry => 2#2
  | .cool => 3#2

/-- The index of a wide-vane position (R49); 7 is reserved. -/
def wideVaneIndex : WideVane → BitVec 3
  | .leftEnd => 0#3
  | .left => 1#3
  | .middle => 2#3
  | .right => 3#3
  | .rightEnd => 4#3
  | .sides => 5#3
  | .swing => 6#3

/-- The index of a vane position (R49); 7 is reserved. -/
def vaneIndex : Vane → BitVec 3
  | .upEnd => 0#3
  | .up => 1#3
  | .middle => 2#3
  | .down => 3#3
  | .downEnd => 4#3
  | .swing => 5#3
  | .auto => 6#3

/-- The index of a timer program (R49). -/
def timerProgramIndex : TimerProgram → BitVec 2
  | .none => 0#2
  | .start => 1#2
  | .stop => 2#2
  | .startAndEnd => 3#2

end Sys2Proof.Machine
end

