-- ==== Sys2Proof/Machine/Ops.lean ====
section
/-!
DEFINITION. The named operations over the state: one update per field, the sample buffer (rules R21, R60),
and the two ends of a command (rules R12, R219).
-/

namespace Sys2Proof.Machine

/-! ### One update per field -/

/-- `S` with its written elements replaced. -/
def State.setSamples (s : State) (m : List SampleCell) : State := { s with samples := m }

/-- `SLEN <- n`. -/
def State.setSlen (s : State) (n : Nat) : State := { s with slen := n }

/-- `F[0..17] <- f[0..17]`. -/
def State.setFrame (s : State) (f : Frame) : State := { s with frame := f }

/-- The OperatingState registers replaced. -/
def State.setSt (s : State) (st : OperatingState) : State := { s with st := st }

/-- `TOL <- v`. -/
def State.setTol (s : State) (v : BitVec 16) : State := { s with tol := v }

/-- `STATUS.ERR <- v`. -/
def State.setStatus (s : State) (v : Byte) : State := { s with status := v }

/-- The host's side replaced. -/
def State.setHost (s : State) (h : HostSide) : State := { s with host := h }

/-- The draw numbered `s.draws` is used up (log 4). -/
def State.useDraw (s : State) : State := { s with draws := s.draws + 1 }

/-- What a host read of `ST.clockSetting.value` returns while `auto` is 1 is drawn anew (U8; log 8). -/
def State.redrawClock (s : State) : State := ({ s with clockDraw := s.draws }).useDraw

/-! ### The sample buffer -/

/-- The written element at index `i`, if there is one. -/
def findCell (m : List SampleCell) (i : Nat) : Option SampleCell := m.find? fun c => Nat.beq c.index i

/-- `S[i]` (R11): the value written last, else the free value of reset (R50, R253). -/
def State.sample (s : State) (i : Nat) : Sample :=
  match findCell s.samples i with
  | some c => c.value
  | none => Config.freeSample s.sampleDraw i

/-- One element written, the cells kept in rising order of index (log 9). -/
def insertCell (c : SampleCell) : List SampleCell → List SampleCell
  | [] => [c]
  | d :: ds =>
    if c.index < d.index then c :: d :: ds
    else if c.index = d.index then c :: ds
    else d :: insertCell c ds

/-- The cells of the samples `vs` at the indices `start`, `start + 1`, ..., written by PENC. -/
def cellsFrom (start : Nat) : List Sample → List SampleCell
  | [] => []
  | v :: vs => ⟨start, v, false⟩ :: cellsFrom (start + 1) vs

/-- `S[0..vs.length-1] <- vs` by PENC; the elements above are unchanged (R160, R161). -/
def writeTrain (vs : List Sample) (m : List SampleCell) : List SampleCell :=
  cellsFrom 0 vs ++ m.filter fun c => vs.length ≤ c.index

/-- The element after `SLEN <- n`: at an index of `n` or more and not written by the host, any value (U2;
log 7). -/
def beyondSlen (draw n : Nat) (c : SampleCell) : SampleCell :=
  if n ≤ c.index ∧ c.byHost = false then { c with value := Config.freeSample draw c.index } else c

/-- The canonical form of the sample buffer (log 9): indices strictly rising, and each in 0..S_CAP-1. -/
abbrev SamplesWf (cap : Nat) (m : List SampleCell) : Prop :=
  m.Pairwise (fun c d => c.index < d.index) ∧ ∀ c ∈ m, c.index < cap

/-! ### The end of a command -/

/-- What a failing command leaves unspecified (R219): `F` for PDEC and FENC, nothing for the others. -/
inductive Destination where
  | nothing
  | frame
deriving DecidableEq, Repr

/-- The command ends with outcome `Ok`: `STATUS.ERR <- 0` (R12, R42). -/
def State.complete (s : State) : State := s.setStatus okCode

/-- The command ends with outcome `Err k` (R219): `STATUS.ERR <- code(k)`, and its destination buffer is
left unspecified (a free draw). This is all that "taking an exception" is on HPIR: nothing is saved, no
mode changes, control goes nowhere, and there is no return (R220). -/
def State.raise (s : State) (k : ErrKind) : Destination → State
  | .nothing => s.setStatus k.code
  | .frame => ((s.setFrame (Config.freeFrame s.draws)).useDraw).setStatus k.code

end Sys2Proof.Machine
end

