-- ==== Sys2Proof/Machine/Control.lean ====
section
/-!
DEFINITION. NOP (rule R200).
-/

namespace Sys2Proof.Machine

/-- NOP (R200): outcome `Ok`; reads and writes nothing else. -/
def execNop (s : State) : Host.Outcome State Fault Refusal := .next s.complete

end Sys2Proof.Machine
end

