-- ==== Sys2Proof/Machine/Operands.lean ====
section
/-!
DEFINITION. The implicit operands of the commands (rule R81): the bits of the frame (rules R63, R160), the
window of valid samples (rule R162), the tolerance (rule R40) and the clock byte (rule R124).
-/

namespace Sys2Proof.Machine

/-- Byte `i` of a frame; `i` is below 18 wherever a rule reads one. -/
def frameByte (f : Frame) (i : Nat) : Byte := f.toList.getD i 0#8

/-- `bit(k) = (F[k / 8] >> (k mod 8)) & 1` (R160): bit `j` of byte `i` is bit `8*i + j` (R63). -/
def frameBit (f : Frame) (k : Nat) : Bool := (frameByte f (k / 8)).getLsbD (k % 8)

/-- The 144 bits of a frame in the order of arrival (R62, R63). -/
def frameBits (f : Frame) : List Bool := (List.range 144).map (frameBit f)

/-- `S[0..SLEN-1]`, the window PDEC reads (R162), each element read as `S[i]`. Where the first `SLEN`
cells are those of the indices `0, 1, ...`, the same list is read in one pass
(`Laws.window_eq`: the two branches agree in every state). -/
def State.window (s : State) : List Sample :=
  if (s.samples.take s.slen).map SampleCell.index = List.range s.slen then
    (s.samples.take s.slen).map SampleCell.value
  else (List.range s.slen).map s.sample

/-- Sample `i` of a list of samples; `i` is below its length wherever a rule reads one. -/
def sampleAt (w : List Sample) (i : Nat) : Sample := w.getD i 0#32

/-- The samples `w[o .. o+n-1]`. -/
def slice (w : List Sample) (o n : Nat) : List Sample := (w.drop o).take n

/-- Byte 10 of an encoded frame (R124): the wall clock as `hour*6 + minute/10` when the clock is
automatic, else the stored value. -/
def clockByte (cs : ClockSetting) (hour : BitVec 5) (minute : BitVec 6) : Byte :=
  match cs.auto with
  | true => BitVec.ofNat 8 (hour.toNat * 6 + minute.toNat / 10)
  | false => cs.value

end Sys2Proof.Machine
end

