-- ==== Sys2Proof/Machine/Checksum.lean ====
section
/-!
DEFINITION. The checksum function and the commands CKGEN and CKVER (rules R120 to R122).
-/

namespace Sys2Proof.Machine

/-- `cksum(f) = (f[0] + ... + f[16]) mod 256` (R120). -/
def cksum (f : Frame) : Byte := BitVec.ofNat 8 ((f.toList.take 17).map BitVec.toNat).sum

/-- Byte 17 holds the checksum of bytes 0 to 16 (R100). -/
def checksumOk (f : Frame) : Bool := f[17] == cksum f

/-- A frame with its byte 17 set to the checksum of the others (R121). -/
def withChecksum (f : Frame) : Frame := f.set 17 (cksum f)

/-- CKGEN (R121): `F[17] <- cksum(F)`; it cannot fail. -/
def execCkgen (s : State) : Host.Outcome State Fault Refusal :=
  .next (s.setFrame (withChecksum s.frame)).complete

/-- CKVER (R122): `ChecksumError` exactly when byte 17 differs; writes nothing but `STATUS`. -/
def execCkver (s : State) : Host.Outcome State Fault Refusal :=
  .next (match require (checksumOk s.frame) .checksumError with
    | .ok () => s.complete
    | .error k => s.raise k .nothing)

end Sys2Proof.Machine
end

