-- ==== Sys2Proof/Machine/FrameCodec.lean ====
section
/-!
DEFINITION. The frame codec commands FENC (rules R123 to R127) and FDEC (rules R128 to R142).
-/

namespace Sys2Proof.Machine

/-! ### FENC -/

/-- The range tests of the wall clock or of the explicit clock value (R123). -/
def clockInRange (cs : ClockSetting) (hour : BitVec 5) (minute : BitVec 6) : Bool :=
  match cs.auto with
  | true => hour ≤ 23#5 && minute ≤ 59#6
  | false => cs.value ≤ 143#8

/-- Every precondition of R123 holds. -/
def fencReady (st : OperatingState) (hour : BitVec 5) (minute : BitVec 6) : Bool :=
  16#8 ≤ st.temperature && st.temperature ≤ 31#8 && st.fanSpeed ≤ 3#8 &&
    clockInRange st.clockSetting hour minute && st.timerEndTime ≤ 143#8 && st.timerStartTime ≤ 143#8

/-- `force` of R124: econo-cool in cool mode, or long mode, forces the vane code of auto. -/
def vaneForced (st : OperatingState) : Bool := (st.econoCool && st.mode == .cool) || st.longMode

/-- `econoOn` of R124: the econo bit is emitted only in cool mode and without long mode. -/
def econoEmitted (st : OperatingState) : Bool := st.econoCool && st.mode == .cool && !st.longMode

/-- Bytes 0 to 16 of R124, byte 17 not yet computed. -/
def encodeBody (st : OperatingState) (hour : BitVec 5) (minute : BitVec 6) : Frame :=
  #v[0x23#8, 0xCB#8, 0x26#8, 0x01#8, 0x00#8,
    powerCode st.on,
    modeCode st.mode ||| flagCode 0x40#8 st.isee,
    st.temperature - 16#8,
    mode2Code st.mode ||| wideVaneCode st.wideVane,
    st.fanSpeed ||| vaneCode (if vaneForced st then .auto else st.vane),
    clockByte st.clockSetting hour minute,
    st.timerEndTime,
    st.timerStartTime,
    0x00#8,
    flagCode 0x20#8 (econoEmitted st) ||| flagCode 0x04#8 st.cleanMode,
    flagCode 0x10#8 st.longMode ||| flagCode 0x04#8 st.plasma,
    0x00#8,
    0x00#8]

/-- The eighteen bytes of R124. -/
def encodeFrame (st : OperatingState) (hour : BitVec 5) (minute : BitVec 6) : Frame :=
  withChecksum (encodeBody st hour minute)

/-- FENC (R123 to R127): the frame of the state, or `PreconditionViolation` with `F` unspecified. -/
def execFenc (s : State) : Host.Outcome State Fault Refusal :=
  .next (match require (fencReady s.st s.host.wcHour s.host.wcMin) .preconditionViolation with
    | .ok () => (s.setFrame (encodeFrame s.st s.host.wcHour s.host.wcMin)).complete
    | .error k => s.raise k .frame)

/-! ### FDEC -/

/-- The candidate values of R128. -/
structure Decoded where
  on : Bool
  isee : Bool
  mode : Mode
  temperature : Byte
  wideVane : WideVane
  fanSpeed : Byte
  vane : Vane
  clock : Byte
  tEnd : Byte
  tStart : Byte
  tProg : TimerProgram
  econo : Bool
  clean : Bool
  longm : Bool
  plasma : Bool
deriving DecidableEq, Repr

/-- Check 1, checksum (R129). -/
def checkChecksum (f : Frame) : Except ErrKind Unit := require (checksumOk f) .checksumError

/-- Check 2, preamble (R130). -/
def checkPreamble (f : Frame) : Except ErrKind Unit :=
  require (f.toList.take 5 == preamble) .malformedHeader

/-- Check 3, byte 5 (R131). -/
def checkPower (b : Byte) : Except ErrKind Bool := orRaise (lookup powerKeys powerCode b) .invalidField

/-- Check 4, byte 6 (R132): unused bits, then `isee` and the mode code. -/
def checkMode (b : Byte) : Except ErrKind (Bool × Mode) := do
  require (b &&& 0x87#8 == 0#8) .invalidField
  let mode ← orRaise (lookup modeKeys modeCode (b &&& 0x38#8)) .invalidField
  .ok (b.getLsbD 6, mode)

/-- Check 5, byte 7 (R133). -/
def checkTemperature (b : Byte) : Except ErrKind Byte := do
  require (b &&& 0xF0#8 == 0#8) .invalidField
  .ok (b + 16#8)

/-- Check 6, byte 8 (R134): unused bits, wide-vane code, then the second mode code against `mode`. -/
def checkWideVane (mode : Mode) (b : Byte) : Except ErrKind WideVane := do
  require (b &&& 0x09#8 == 0#8) .invalidField
  let wideVane ← orRaise (lookup wideVaneKeys wideVaneCode (b &&& 0xF0#8)) .invalidField
  require (b &&& 0x06#8 == mode2Code mode) .inconsistentMode
  .ok wideVane

/-- Check 7, byte 9 (R135): fan first, then vane. -/
def checkVane (b : Byte) : Except ErrKind (Byte × Vane) := do
  require (b &&& 0x07#8 ≤ 3#8) .invalidField
  let vane ← orRaise (vaneOfCode (b &&& 0xF8#8)) .invalidField
  .ok (b &&& 0x07#8, vane)

/-- Check 8, one of bytes 10 to 12 (R136). -/
def checkTime (b : Byte) : Except ErrKind Byte := do
  require (b ≤ 143#8) .invalidField
  .ok b

/-- Check 9, byte 13 (R137). -/
def checkTimerProgram (c : Config) (b : Byte) : Except ErrKind TimerProgram :=
  orRaise (lookup timerProgramKeys (timerProgramCode c) b) .invalidField

/-- Check 10, byte 14 (R138): unused bits, then the econo invariant; `econo` and `clean`. -/
def checkEcono (mode : Mode) (vane : Vane) (b : Byte) : Except ErrKind (Bool × Bool) := do
  require (b &&& 0xDB#8 == 0#8) .invalidField
  require (!b.getLsbD 5 || (mode == .cool && vane == .auto)) .inconsistentState
  .ok (b.getLsbD 5, b.getLsbD 2)

/-- Check 11, byte 15 (R139): unused bits, then the long-mode invariant; `longm` and `plasma`. -/
def checkLong (vane : Vane) (b : Byte) : Except ErrKind (Bool × Bool) := do
  require (b &&& 0xEB#8 == 0#8) .invalidField
  require (!b.getLsbD 4 || vane == .auto) .inconsistentState
  .ok (b.getLsbD 4, b.getLsbD 2)

/-- Check 12, byte 16 (R140). -/
def checkByte16 (b : Byte) : Except ErrKind Unit := require (b == 0#8) .invalidField

/-- The twelve checks in the order of R128; the first that fails gives the error kind. -/
def decodeFrame (c : Config) (f : Frame) : Except ErrKind Decoded := do
  checkChecksum f
  checkPreamble f
  let on ← checkPower f[5]
  let iseeMode ← checkMode f[6]
  let temperature ← checkTemperature f[7]
  let wideVane ← checkWideVane iseeMode.2 f[8]
  let fanVane ← checkVane f[9]
  let clock ← checkTime f[10]
  let tEnd ← checkTime f[11]
  let tStart ← checkTime f[12]
  let tProg ← checkTimerProgram c f[13]
  let econoClean ← checkEcono iseeMode.2 fanVane.2 f[14]
  let longPlasma ← checkLong fanVane.2 f[15]
  checkByte16 f[16]
  .ok { on := on, isee := iseeMode.1, mode := iseeMode.2, temperature := temperature,
        wideVane := wideVane, fanSpeed := fanVane.1, vane := fanVane.2, clock := clock, tEnd := tEnd,
        tStart := tStart, tProg := tProg, econo := econoClean.1, clean := econoClean.2,
        longm := longPlasma.1, plasma := longPlasma.2 }

/-- The commit of R141: fifteen registers; `ST.clockSetting` keeps both its fields. -/
def commit (st : OperatingState) (d : Decoded) : OperatingState where
  on := d.on
  mode := d.mode
  isee := d.isee
  temperature := d.temperature
  wideVane := d.wideVane
  fanSpeed := d.fanSpeed
  vane := d.vane
  clockSetting := st.clockSetting
  lastObservedClock := ⟨true, d.clock⟩
  timerEndTime := d.tEnd
  timerStartTime := d.tStart
  timerProgram := d.tProg
  econoCool := d.econo
  longMode := d.longm
  cleanMode := d.clean
  plasma := d.plasma

/-- FDEC (R128 to R142): all twelve checks, then the commit; else the first failing check's kind and no
register written. `F` is never written. -/
def execFdec (s : State) : Host.Outcome State Fault Refusal :=
  .next (match decodeFrame s.cfg s.frame with
    | .ok d => (s.setSt (commit s.st d)).complete
    | .error k => s.raise k .nothing)

end Sys2Proof.Machine
end

