-- ==== Sys2Proof/Machine/PulseCodec.lean ====
section
/-!
DEFINITION. The pulse codec commands PENC (rules R160, R161) and PDEC (rules R162 to R176) with PDEC's
sub-operations MATCH, space classification, BITDEC, DEC291, DEC583 and HSEARCH, a definition each.
-/

namespace Sys2Proof.Machine

/-! ### PENC -/

/-- The bit cell of one bit (R102). -/
def bitCell (c : Config) (b : Bool) : List Sample :=
  [c.tBitMark, if b then c.tOneSpace else c.tZeroSpace]

/-- The 291-sample unit of a frame (R103). -/
def pulseUnit (c : Config) (f : Frame) : List Sample :=
  [c.tHdrMark, c.tHdrSpace] ++ (frameBits f).flatMap (bitCell c) ++ [c.tRptMark]

/-- The 583-sample train of a frame (R104): unit, repeat space, the same unit again. -/
def pulseTrain (c : Config) (f : Frame) : List Sample :=
  pulseUnit c f ++ [c.tRptSpace] ++ pulseUnit c f

/-- PENC (R160, R161): writes the train into `S[0..582]` and `SLEN <- 583`; it cannot fail. -/
def execPenc (s : State) : Host.Outcome State Fault Refusal :=
  .next ((s.setSamples (writeTrain (pulseTrain s.cfg s.frame) s.samples)).setSlen 583).complete

/-! ### Windows -/

/-- `|v - e|` of two naturals (R10); one of the two truncated differences is 0. -/
def absDiff (v e : Nat) : Nat := (v - e) + (e - v)

/-- `match(v, e, w) = |v - e| < w`, strict (R163). -/
def tolMatch (v e w : Nat) : Bool := absDiff v e < w

/-- A sample in the window of half-width `w` around an expected sample (R163). -/
def near (v e : Sample) (w : Nat) : Bool := tolMatch v.toNat e.toNat w

/-- The space classification of R164. -/
def classifySpace (c : Config) (tol : Nat) (v : Sample) : Except ErrKind Bool :=
  match near v c.tZeroSpace tol, near v c.tOneSpace tol with
  | true, false => .ok false
  | false, true => .ok true
  | true, true => .error .badTiming
  | false, false => .error .badTiming

/-! ### BITDEC -/

/-- The mark/space pairs in order of arrival, the mark tested before its space (R165). A lone last
sample, which no window of an even length has, is no pair. -/
def decodePairs (c : Config) (tol : Nat) : List Sample → Except ErrKind (List Bool)
  | mark :: space :: rest => do
    require (near mark c.tBitMark tol) .badMark
    let b ← classifySpace c tol space
    let bs ← decodePairs c tol rest
    .ok (b :: bs)
  | [_] => .ok []
  | [] => .ok []

/-- Bit `k` as a number. -/
def bitValue (bs : List Bool) (k : Nat) : Nat := (bs.getD k false).toNat

/-- `f[i] = b[8*i] + 2*b[8*i+1] + ... + 128*b[8*i+7]` (R165). -/
def byteOfBits (bs : List Bool) (i : Nat) : Byte :=
  BitVec.ofNat 8 (bitValue bs (8 * i) + 2 * bitValue bs (8 * i + 1) + 4 * bitValue bs (8 * i + 2) +
    8 * bitValue bs (8 * i + 3) + 16 * bitValue bs (8 * i + 4) + 32 * bitValue bs (8 * i + 5) +
    64 * bitValue bs (8 * i + 6) + 128 * bitValue bs (8 * i + 7))

/-- The frame of 144 bits (R165). -/
def frameOfBits (bs : List Bool) : Frame := Vector.ofFn fun i => byteOfBits bs i.val

/-- A recovered frame must carry its checksum (R165). -/
def verifyFrame (f : Frame) : Except ErrKind Frame := do
  require (checksumOk f) .checksumError
  .ok f

/-- BITDEC (R165): 288 samples to a frame; the checksum is tested after all 144 pairs. -/
def bitDecode (c : Config) (tol : Nat) (d : List Sample) : Except ErrKind Frame := do
  let bs ← decodePairs c tol d
  verifyFrame (frameOfBits bs)

/-! ### DEC291, DEC583, HSEARCH -/

/-- DEC291 (R166): one unit of 291 samples. -/
def decodeUnit (c : Config) (tol : Nat) (u : List Sample) : Except ErrKind Frame := do
  require (near (sampleAt u 0) c.tHdrMark (2 * tol)) .badMark
  require (near (sampleAt u 1) c.tHdrSpace (2 * tol)) .badTiming
  require (near (sampleAt u 290) c.tRptMark (2 * tol)) .badMark
  bitDecode c tol (slice u 2 288)

/-- The outcome is `Err ChecksumError`, which no sub-attempt suppresses (R176). -/
def isChecksumError : Except ErrKind Frame → Bool
  | .error .checksumError => true
  | _ => false

/-- The outcome of the arbiter from the outcomes of the two halves (R167). -/
def arbitrate (a b : Except ErrKind Frame) : Except ErrKind Frame :=
  if isChecksumError a || isChecksumError b then .error .checksumError
  else match a, b with
    | .ok fa, .ok fb => if fa = fb then .ok fa else .error .repeatMismatch
    | .ok fa, .error _ => .ok fa
    | .error _, .ok fb => .ok fb
    | .error _, .error _ => .error .noValidFrame

/-- DEC583 (R167): the separator first, then both halves. -/
def decodeTrain (c : Config) (tol : Nat) (t : List Sample) : Except ErrKind Frame := do
  require (near (sampleAt t 291) c.tRptSpace (2 * tol)) .badTiming
  arbitrate (decodeUnit c tol (slice t 0 291)) (decodeUnit c tol (slice t 292 291))

/-- The search over a list of offsets (R168): the first success or `ChecksumError` ends it, a structural
failure goes on. -/
def searchOffsets (c : Config) (tol : Nat) (w : List Sample) : List Nat → Except ErrKind Frame
  | [] => .error .noHeaderFound
  | o :: os =>
    if near (sampleAt w o) c.tHdrMark (2 * tol) then
      match decodeUnit c tol (slice w o 291) with
      | .ok f => .ok f
      | .error k => if k.isStructural then searchOffsets c tol w os else .error k
    else searchOffsets c tol w os

/-- HSEARCH (R168): the offsets `0 .. n - 291`, ascending. -/
def headerSearch (c : Config) (tol : Nat) (w : List Sample) : Except ErrKind Frame :=
  searchOffsets c tol w (List.range (w.length - 290))

/-! ### PDEC -/

/-- The dispatch of R162 on the length of the window. -/
def decodeWindow (c : Config) (tol : Nat) (w : List Sample) : Except ErrKind Frame :=
  if w.length = 583 then decodeTrain c tol w
  else if w.length = 291 then decodeUnit c tol w
  else if 292 ≤ w.length then headerSearch c tol w
  else .error .invalidLength

/-- PDEC (R162, R169): `F` is the recovered frame, or unspecified with the outcome's kind. -/
def execPdec (s : State) : Host.Outcome State Fault Refusal :=
  .next (match decodeWindow s.cfg s.tol.toNat s.window with
    | .ok f => (s.setFrame f).complete
    | .error k => s.raise k .frame)

end Sys2Proof.Machine
end

