-- ==== Sys2Proof/Machine/Dispatch.lean ====
section
/-!
DEFINITION. The dispatch of a command to its meaning, one arm per command of rule R80.
-/

namespace Sys2Proof.Machine

/-- The effect of one command, an atomic transition of the state (R204, R250). -/
def exec (i : Instr) (s : State) : Host.Outcome State Fault Refusal :=
  match i with
  | .nop => Sys2Proof.Machine.execNop s
  | .ckgen => Sys2Proof.Machine.execCkgen s
  | .ckver => Sys2Proof.Machine.execCkver s
  | .fenc => Sys2Proof.Machine.execFenc s
  | .fdec => Sys2Proof.Machine.execFdec s
  | .penc => Sys2Proof.Machine.execPenc s
  | .pdec => Sys2Proof.Machine.execPdec s

end Sys2Proof.Machine
end

