-- ==== Sys2Proof/Machine/HostPort.lean ====
section
/-!
DEFINITION. The host boundary: host writes and reads (rules R48, R49, R60, R67), the issue of a command
(rules R82, R201, R204), the wall-clock ports (rule R43) and reset (rule R240). What the spec gives no
step is refused by name (log 10).
-/

namespace Sys2Proof.Machine

/-! ### Host writes -/

/-- A host write of one ST field (R24 to R39, R49). -/
def OperatingState.write (st : OperatingState) : StWrite → Except Refusal OperatingState
  | .on v => .ok { st with on := v }
  | .mode i =>
    match lookup modeKeys modeIndex i with
    | some m => .ok { st with mode := m }
    | none => .error .reservedIndex
  | .isee v => .ok { st with isee := v }
  | .temperature v => .ok { st with temperature := v }
  | .wideVane i =>
    match lookup wideVaneKeys wideVaneIndex i with
    | some v => .ok { st with wideVane := v }
    | none => .error .reservedIndex
  | .fanSpeed v => .ok { st with fanSpeed := v }
  | .vane i =>
    match lookup vaneKeys vaneIndex i with
    | some v => .ok { st with vane := v }
    | none => .error .reservedIndex
  | .clockAuto v => .ok { st with clockSetting := { st.clockSetting with auto := v } }
  | .clockValue v => .ok { st with clockSetting := { st.clockSetting with value := v } }
  | .lastObservedValid _ => .error .readOnlyRegister
  | .lastObservedValue _ => .error .readOnlyRegister
  | .timerEndTime v => .ok { st with timerEndTime := v }
  | .timerStartTime v => .ok { st with timerStartTime := v }
  | .timerProgram i =>
    match lookup timerProgramKeys timerProgramIndex i with
    | some p => .ok { st with timerProgram := p }
    | none => .error .reservedIndex
  | .econoCool v => .ok { st with econoCool := v }
  | .longMode v => .ok { st with longMode := v }
  | .cleanMode v => .ok { st with cleanMode := v }
  | .plasma v => .ok { st with plasma := v }

/-- The write is of a field of `ST.clockSetting` (R31). -/
def StWrite.isClock : StWrite → Bool
  | .clockAuto _ | .clockValue _ => true
  | .on _ | .mode _ | .isee _ | .temperature _ | .wideVane _ | .fanSpeed _ | .vane _
  | .lastObservedValid _ | .lastObservedValue _ | .timerEndTime _ | .timerStartTime _
  | .timerProgram _ | .econoCool _ | .longMode _ | .cleanMode _ | .plasma _ => false

/-- The host write `w`, which leaves the ST registers `st` (R48). Only a write of `ST.clockSetting` draws
anew what a read of its unspecified `value` returns (U8; log 8). -/
def State.hostWriteSt (s : State) (w : StWrite) (st : OperatingState) : State :=
  match w.isClock with
  | true => (s.setSt st).redrawClock
  | false => s.setSt st

/-- `S[i] <- v` by the host (R48). -/
def State.hostWriteSample (s : State) (i : Nat) (v : Sample) : State :=
  s.setSamples (insertCell ⟨i, v, true⟩ s.samples)

/-- `SLEN <- n` by the host (R22). The elements at `n` and above that the host did not write are then
unspecified (U2; log 7). -/
def State.hostWriteSlen (s : State) (n : Nat) : State :=
  ((s.setSamples (s.samples.map (beyondSlen s.draws n))).setSlen n).useDraw

/-! ### Host reads -/

/-- The value of one ST field as a number; enumerations by index (R49). `ST.clockSetting.value` while
`auto` is 1 is unspecified (R31, U8) but the same at every read (R67): the free value of `clockDraw`
(log 8). -/
def State.readSt (s : State) : StField → Nat
  | .on => s.st.on.toNat
  | .mode => (modeIndex s.st.mode).toNat
  | .isee => s.st.isee.toNat
  | .temperature => s.st.temperature.toNat
  | .wideVane => (wideVaneIndex s.st.wideVane).toNat
  | .fanSpeed => s.st.fanSpeed.toNat
  | .vane => (vaneIndex s.st.vane).toNat
  | .clockAuto => s.st.clockSetting.auto.toNat
  | .clockValue =>
    match s.st.clockSetting.auto with
    | true => (Config.freeByte s.clockDraw 20).toNat
    | false => s.st.clockSetting.value.toNat
  | .lastObservedValid => s.st.lastObservedClock.valid.toNat
  | .lastObservedValue => s.st.lastObservedClock.value.toNat
  | .timerEndTime => s.st.timerEndTime.toNat
  | .timerStartTime => s.st.timerStartTime.toNat
  | .timerProgram => (timerProgramIndex s.st.timerProgram).toNat
  | .econoCool => s.st.econoCool.toNat
  | .longMode => s.st.longMode.toNat
  | .cleanMode => s.st.cleanMode.toNat
  | .plasma => s.st.plasma.toNat

/-- The value a host read returns; a read of `CMD` returns an unspecified value (R41, U3; log 8). -/
def State.readElement (s : State) : Element → Except Refusal Nat
  | .sample i => if i < s.cfg.sCap then .ok (s.sample i).toNat else .error .noSuchElement
  | .slen => .ok s.slen
  | .frame i => if i < 18 then .ok (frameByte s.frame i).toNat else .error .noSuchElement
  | .st f => .ok (s.readSt f)
  | .tol => .ok s.tol.toNat
  | .cmd => .ok (Config.freeByte s.draws 0).toNat
  | .status => .ok s.status.toNat

/-- The host has read `v` from an element: nothing of HPIR changes (R67); a read of `CMD` uses up the draw
that gave its value (U3; log 8). -/
def State.hostRead (s : State) (e : Element) (v : Nat) : State :=
  match e with
  | .cmd => (s.setHost { s.host with lastRead := some v }).useDraw
  | .sample _ | .slen | .frame _ | .st _ | .tol | .status =>
    s.setHost { s.host with lastRead := some v }

/-! ### Commands, ports and reset -/

/-- `CMD <- w` (R204): the command of the word, or `IllegalCommand` with nothing else changed (R201). -/
def issue (w : Byte) (s : State) : Host.Outcome State Fault Refusal :=
  match decode w with
  | .ok i => exec i s
  | .error (.reservedWord _) => .next (s.raise .illegalCommand .nothing)

/-- Reset applied by the host (R240): the configuration and the host's side stay (log 14). -/
def State.hostReset (s : State) : State := State.resetWith s.cfg s.draws s.host

/-- One move of the host. -/
def hostMove (m : HostMove) (s : State) : Host.Outcome State Fault Refusal :=
  match m with
  | .writeSample i v =>
    if i < s.cfg.sCap then .next (s.hostWriteSample i v) else .refused .noSuchElement
  | .writeSlen n =>
    if n ≤ s.cfg.sCap then .next (s.hostWriteSlen n) else .refused .slenBeyondCapacity
  | .writeFrame i v =>
    if h : i < 18 then .next (s.setFrame (s.frame.set i v h)) else .refused .noSuchElement
  | .writeSt w =>
    match s.st.write w with
    | .ok st => .next (s.hostWriteSt w st)
    | .error r => .refused r
  | .writeTol v => .next (s.setTol v)
  | .writeStatus _ => .refused .readOnlyRegister
  | .command w => issue w s
  | .commandIfOk w => if s.status = okCode then issue w s else .next s
  | .driveClock hour minute => .next (s.setHost { s.host with wcHour := hour, wcMin := minute })
  | .read e =>
    match s.readElement e with
    | .ok v => .next (s.hostRead e v)
    | .error r => .refused r
  | .reset => .next s.hostReset

/-! ### The pseudo-operations -/

/-- TX (R108, R202): `FENC`; if `STATUS.ERR = 0` then `PENC`. -/
def tx : List HostMove := [.command (encode .fenc), .commandIfOk (encode .penc)]

/-- RX (R108, R203): `PDEC`; if `STATUS.ERR = 0` then `FDEC`. -/
def rx : List HostMove := [.command (encode .pdec), .commandIfOk (encode .fdec)]

end Sys2Proof.Machine
end

