-- ==== Sys2Proof/Machine/Step.lean ====
section
/-!
DEFINITION. One step of the machine: the next move of the host is made, in the order of the host's list
(rules R69, R204; log 1). HPIR fetches nothing (rule R44): a program is the host's list of moves.
-/

namespace Sys2Proof.Machine

/-- The state in which the host's list of moves is `ms`. -/
def State.withPending (s : State) (ms : List HostMove) : State :=
  s.setHost { s.host with pending := ms }

/-- One step: the host's next move; with no move left HPIR stays as it is (log 1). -/
def step (s : State) : Host.Outcome State Fault Refusal :=
  match s.host.pending with
  | [] => .next s
  | m :: rest => hostMove m (s.withPending rest)

/-- The state in which the host's next move is a `CMD` write of the word (log 1). -/
def State.withFetchWord (s : State) (nbits w : Nat) : State :=
  s.withPending (.command (firstWord nbits w) :: s.host.pending)

end Sys2Proof.Machine
end

