-- ==== Sys2Proof/Safety.lean ====
section
/-!
DEFINITION. The terms the claims use: the invariant of every state a run of HPIR can reach, the valid
OperatingState (rule R47), the ranges FENC requires (rule R123), and the frames FDEC accepts.
-/

namespace Sys2Proof.Machine

/-- What every step keeps: a configuration of HPIR (U9), the canonical form of `S`, `SLEN` in 0..S_CAP
(R22), a code of R211 in `STATUS`, and the draws in use below the next one (log 4). -/
structure State.Inv (s : State) : Prop where
  cfgWf : s.cfg.wf = true
  samplesWf : SamplesWf s.cfg.sCap s.samples
  slenLe : s.slen ≤ s.cfg.sCap
  statusLe : s.status ≤ 13#8
  drawLt : s.sampleDraw < s.draws
  clockDrawLt : s.clockDraw < s.draws

/-- The range tests R123 makes of the registers (all but the clock). -/
structure OperatingState.InRange (st : OperatingState) : Prop where
  temperature : 16 ≤ st.temperature.toNat ∧ st.temperature.toNat ≤ 31
  fanSpeed : st.fanSpeed.toNat ≤ 3
  timerEndTime : st.timerEndTime.toNat ≤ 143
  timerStartTime : st.timerStartTime.toNat ≤ 143

/-- The clock FENC would send is legal (R123): the explicit value, or the wall clock when `auto` is 1. -/
structure ClockLegal (cs : ClockSetting) (hour : BitVec 5) (minute : BitVec 6) : Prop where
  explicit : cs.auto = false → cs.value.toNat ≤ 143
  wall : cs.auto = true → hour.toNat ≤ 23 ∧ minute.toNat ≤ 59

/-- FENC's preconditions (R123) hold in a state. -/
structure State.FencLegal (s : State) : Prop where
  inRange : s.st.InRange
  clock : ClockLegal s.st.clockSetting s.host.wcHour s.host.wcMin

/-- The cross-field invariants of R47: econo-cool needs cool mode and auto vane, long mode needs auto
vane. -/
structure OperatingState.Consistent (st : OperatingState) : Prop where
  econoCool : st.econoCool = true → st.mode = .cool ∧ st.vane = .auto
  longMode : st.longMode = true → st.vane = .auto

/-- A valid state (R47): the first three bullets, and not both econo-cool and long mode. The ranges of
the two clock values are in it where they are meaningful (R31, R32). -/
structure OperatingState.Valid (st : OperatingState) : Prop where
  inRange : st.InRange
  clock : st.clockSetting.auto = false → st.clockSetting.value.toNat ≤ 143
  observed : st.lastObservedClock.valid = true → st.lastObservedClock.value.toNat ≤ 143
  consistent : st.Consistent
  notBoth : ¬(st.econoCool = true ∧ st.longMode = true)

end Sys2Proof.Machine
end

