-- ==== Sys2Proof/Certificates/Slice0/Obligations.lean ====
section
/-!
DEFINITION. The statements about HPIR, each from the numbered rules of spec/ its docstring names.
`Spec.…` holds the reading of a rule that a statement compares the model with, written from the rule's own
table or pseudocode. It uses no meaning of a command; where a rule speaks of a sub-operation (DEC291 in
R168) it names the model's, which has a statement of its own.
-/

open Sys2Proof Sys2Proof.Machine

namespace Sys2Proof.Spec

/-- `f[0] + ... + f[16]` in unbounded naturals (R120). -/
def byteSum (F : Nat → Byte) : Nat := ∑ i ∈ Finset.range 17, (F i).toNat

/-- The truncated sum of bytes 0 to 16 (R120). -/
def cksumOf (F : Nat → Byte) : Byte := BitVec.ofNat 8 (byteSum F)

/-- The mode of byte 6's mode field (R87). -/
def modeOf (b : Byte) : Option Mode :=
  if b = 0x20#8 then some .auto else if b = 0x08#8 then some .heat
  else if b = 0x10#8 then some .dry else if b = 0x18#8 then some .cool else none

/-- The second mode code of a mode (R89). -/
def mode2Of : Mode → Byte
  | .auto => 0x06#8
  | .heat => 0x00#8
  | .dry => 0x02#8
  | .cool => 0x06#8

/-- The wide vane of byte 8's wide-vane field (R89). -/
def wideVaneOf (b : Byte) : Option WideVane :=
  if b = 0x10#8 then some .leftEnd else if b = 0x20#8 then some .left
  else if b = 0x30#8 then some .middle else if b = 0x40#8 then some .right
  else if b = 0x50#8 then some .rightEnd else if b = 0x80#8 then some .sides
  else if b = 0xC0#8 then some .swing else none

/-- The vane of byte 9's vane field on decode: 0x00 also means auto (R90, R135). -/
def vaneOf (b : Byte) : Option Vane :=
  if b = 0x00#8 then some .auto else if b = 0x48#8 then some .upEnd
  else if b = 0x50#8 then some .up else if b = 0x58#8 then some .middle
  else if b = 0x60#8 then some .down else if b = 0x68#8 then some .downEnd
  else if b = 0x78#8 then some .swing else if b = 0x40#8 then some .auto else none

/-- The timer program of byte 13 (R96). -/
def timerProgramOf (c : Config) (b : Byte) : Option TimerProgram :=
  if b = 0x00#8 then some .none else if b = c.tpStart then some .start
  else if b = c.tpEnd then some .stop else if b = c.tpBoth then some .startAndEnd else none

/-- `STATUS.ERR` of FDEC: the first failing check of R129 to R140, in that order (R216). -/
def fdecStatus (c : Config) (F : Nat → Byte) : Byte :=
  if F 17 ≠ cksumOf F then 7#8
  else if ¬(F 0 = 0x23#8 ∧ F 1 = 0xCB#8 ∧ F 2 = 0x26#8 ∧ F 3 = 0x01#8 ∧ F 4 = 0x00#8) then 1#8
  else if F 5 ≠ 0x20#8 ∧ F 5 ≠ 0x00#8 then 2#8
  else if F 6 &&& 0x87#8 ≠ 0#8 then 2#8
  else if modeOf (F 6 &&& 0x38#8) = none then 2#8
  else if F 7 &&& 0xF0#8 ≠ 0#8 then 2#8
  else if F 8 &&& 0x09#8 ≠ 0#8 then 2#8
  else if wideVaneOf (F 8 &&& 0xF0#8) = none then 2#8
  else if some (F 8 &&& 0x06#8) ≠ (modeOf (F 6 &&& 0x38#8)).map mode2Of then 3#8
  else if 3 < (F 9 &&& 0x07#8).toNat then 2#8
  else if vaneOf (F 9 &&& 0xF8#8) = none then 2#8
  else if 143 < (F 10).toNat then 2#8
  else if 143 < (F 11).toNat then 2#8
  else if 143 < (F 12).toNat then 2#8
  else if timerProgramOf c (F 13) = none then 2#8
  else if F 14 &&& 0xDB#8 ≠ 0#8 then 2#8
  else if (F 14).getLsbD 5 = true ∧
    (modeOf (F 6 &&& 0x38#8) ≠ some .cool ∨ vaneOf (F 9 &&& 0xF8#8) ≠ some .auto) then 4#8
  else if F 15 &&& 0xEB#8 ≠ 0#8 then 2#8
  else if (F 15).getLsbD 4 = true ∧ vaneOf (F 9 &&& 0xF8#8) ≠ some .auto then 4#8
  else if F 16 ≠ 0#8 then 2#8
  else 0#8

/-- `bit(k) = (F[k / 8] >> (k mod 8)) & 1` (R160). -/
def bit (F : Nat → Byte) (k : Nat) : Bool := (F (k / 8)).getLsbD (k % 8)

/-- `match(v, e, w) = |v - e| < w` over the integers (R163). -/
def window (v e : Sample) (w : Nat) : Prop := |(v.toNat : ℤ) - (e.toNat : ℤ)| < (w : ℤ)

/-- A sample is a zero's space, and no one's (R164). -/
def isZeroSpace (c : Config) (tol : Nat) (v : Sample) : Prop :=
  window v c.tZeroSpace tol ∧ ¬window v c.tOneSpace tol

/-- A sample is a one's space, and no zero's (R164). -/
def isOneSpace (c : Config) (tol : Nat) (v : Sample) : Prop :=
  window v c.tOneSpace tol ∧ ¬window v c.tZeroSpace tol

/-- Pair `k` of a window of bit cells matches: its mark, and its space as a zero or as a one (R165). -/
def goodPair (c : Config) (tol : Nat) (d : List Sample) (k : Nat) : Prop :=
  window (sampleAt d (2 * k)) c.tBitMark tol ∧
    (isZeroSpace c tol (sampleAt d (2 * k + 1)) ∨ isOneSpace c tol (sampleAt d (2 * k + 1)))

/-- The gap between the one space and the zero space (R7). -/
def gap (c : Config) : Nat := absDiff c.tOneSpace.toNat c.tZeroSpace.toNat

/-- What a search offset suppresses: no header mark there, or a structural failure of the unit (R168,
R176). -/
def passedOver (c : Config) (tol : Nat) (w : List Sample) (o : Nat) : Prop :=
  ¬window (sampleAt w o) c.tHdrMark (2 * tol) ∨
    decodeUnit c tol (slice w o 291) = .error .badMark ∨
    decodeUnit c tol (slice w o 291) = .error .badTiming

/-- The value `v` a host read of an ST field returns (R24 to R39, R48): a flag as 0 or 1, an enumeration by
its index in R49's table; the two clock values only where they are meaningful (R31, R32, U8). -/
def stReads (st : OperatingState) (v : Nat) : StField → Prop
  | .on => v = if st.on = true then 1 else 0
  | .mode => ([.auto, .heat, .dry, .cool] : List Mode)[v]? = some st.mode
  | .isee => v = if st.isee = true then 1 else 0
  | .temperature => v = st.temperature.toNat
  | .wideVane =>
    ([.leftEnd, .left, .middle, .right, .rightEnd, .sides, .swing] : List WideVane)[v]? =
      some st.wideVane
  | .fanSpeed => v = st.fanSpeed.toNat
  | .vane =>
    ([.upEnd, .up, .middle, .down, .downEnd, .swing, .auto] : List Vane)[v]? = some st.vane
  | .clockAuto => v = if st.clockSetting.auto = true then 1 else 0
  | .clockValue => st.clockSetting.auto = false → v = st.clockSetting.value.toNat
  | .lastObservedValid => v = if st.lastObservedClock.valid = true then 1 else 0
  | .lastObservedValue => st.lastObservedClock.valid = true → v = st.lastObservedClock.value.toNat
  | .timerEndTime => v = st.timerEndTime.toNat
  | .timerStartTime => v = st.timerStartTime.toNat
  | .timerProgram =>
    ([.none, .start, .stop, .startAndEnd] : List TimerProgram)[v]? = some st.timerProgram
  | .econoCool => v = if st.econoCool = true then 1 else 0
  | .longMode => v = if st.longMode = true then 1 else 0
  | .cleanMode => v = if st.cleanMode = true then 1 else 0
  | .plasma => v = if st.plasma = true then 1 else 0

end Sys2Proof.Spec

/-! ### Reset, the invariant, the step -/

/-- R50: every element the rule gives a value, after reset of any configuration, from any draw and host's
side; the elements it leaves unspecified are left open here too. -/
def Obligations.ResetStateIsAsSpecified : Prop :=
  ∀ s : State, (s = State.reset ∨ ∃ c d h, s = State.resetWith c d h) →
    s.slen = 0 ∧ s.st.on = false ∧ s.st.mode = .auto ∧ s.st.isee = false ∧
    s.st.temperature.toNat = 20 ∧ s.st.wideVane = .middle ∧ s.st.fanSpeed.toNat = 0 ∧
    s.st.vane = .auto ∧ s.st.clockSetting.auto = true ∧ s.st.lastObservedClock.valid = false ∧
    s.st.timerEndTime.toNat = 0 ∧ s.st.timerStartTime.toNat = 0 ∧ s.st.timerProgram = .none ∧
    s.st.econoCool = false ∧ s.st.longMode = false ∧ s.st.cleanMode = false ∧ s.st.plasma = false ∧
    s.tol.toNat = 300 ∧ s.status = 0#8

/-- R240: reset applied by the host gives the reset state; that the configuration and the host's side
stay is the model's choice (log 14). -/
def Obligations.HostResetGivesResetState : Prop :=
  ∀ (s : State) (rest : List HostMove), s.host.pending = .reset :: rest →
    step s = .next (State.resetWith s.cfg s.draws { s.host with pending := rest })

/-- The reset state of every configuration meets the invariant, and is a valid state (R50). -/
def Obligations.ResetMeetsInvariant : Prop :=
  State.reset.Inv ∧
  ∀ (c : Config) (d : Nat) (h : HostSide), c.wf = true →
    (State.resetWith c d h).Inv ∧ (State.resetWith c d h).st.Valid

/-- Every step keeps the invariant: a configuration of HPIR, the canonical form of `S` within `S_CAP`
(R21, log 9), `SLEN <= S_CAP` (R22), a code of R211 in `STATUS`, the draws in use below the next (log 4). -/
def Obligations.StepKeepsInvariant : Prop :=
  ∀ s t : State, s.Inv → step s = .next t → t.Inv

/-- R204: a `CMD` write runs the decoded command, after the move is taken off the host's list (log 1). -/
def Obligations.StepRunsDecodedCommand : Prop :=
  ∀ (s : State) (w : Byte) (rest : List HostMove) (i : Instr),
    s.host.pending = .command w :: rest → decode w = .ok i →
    step s = exec i { s with host := { s.host with pending := rest } }

/-- With no move of the host left HPIR stays as it is (log 1: the model's choice). -/
def Obligations.IdleStepKeepsState : Prop :=
  ∀ s : State, s.host.pending = [] → step s = .next s

/-! ### Command words -/

/-- R80: the seven command words, and some reserved ones. -/
def Obligations.CommandWordsDecode : Prop :=
  decode 0x00#8 = .ok .nop ∧ decode 0x01#8 = .ok .ckgen ∧ decode 0x02#8 = .ok .ckver ∧
  decode 0x03#8 = .ok .fenc ∧ decode 0x04#8 = .ok .fdec ∧ decode 0x05#8 = .ok .penc ∧
  decode 0x06#8 = .ok .pdec ∧ decode 0x07#8 = .error (.reservedWord 0x07#8) ∧
  decode 0x16#8 = .error (.reservedWord 0x16#8) ∧ decode 0xFF#8 = .error (.reservedWord 0xFF#8)

/-- The decoder and the encoder agree in both directions. -/
def Obligations.DecodeEncodeAgree : Prop :=
  ∀ (i : Instr) (w : Byte), decode w = .ok i ↔ encode i = w

/-- R81: a word has a command exactly when `rsv` (bits 7:4) is 0 and `op` (bits 3:0) is at most 6. -/
def Obligations.DecoderAcceptsLegalWords : Prop :=
  ∀ w : Byte, (∃ i, decode w = .ok i) ↔
    w.toNat / 16 = 0 ∧ w.toNat % 16 ≤ 6

/-- R82, R201: a reserved word ends with `IllegalCommand` and changes nothing else; the same said of the
step that makes the `CMD` write, which takes the move off the host's list. That list is the model's choice
(log 1). -/
def Obligations.ReservedWordIsIllegalCommand : Prop :=
  ∀ (s : State) (w : Byte), 6 < w.toNat →
    issue w s = .next { s with status := 13#8 } ∧
    ∀ rest, step { s with host := { s.host with pending := .command w :: rest } } =
      .next { s with status := 13#8, host := { s.host with pending := rest } }

/-- R211: the numeric codes of the error kinds. -/
def Obligations.ErrorKindCodes : Prop :=
  okCode = 0#8 ∧
  ErrKind.code .malformedHeader = 1#8 ∧ ErrKind.code .invalidField = 2#8 ∧
  ErrKind.code .inconsistentMode = 3#8 ∧ ErrKind.code .inconsistentState = 4#8 ∧
  ErrKind.code .badMark = 5#8 ∧ ErrKind.code .badTiming = 6#8 ∧ ErrKind.code .checksumError = 7#8 ∧
  ErrKind.code .repeatMismatch = 8#8 ∧ ErrKind.code .noHeaderFound = 9#8 ∧
  ErrKind.code .noValidFrame = 10#8 ∧ ErrKind.code .invalidLength = 11#8 ∧
  ErrKind.code .preconditionViolation = 12#8 ∧ ErrKind.code .illegalCommand = 13#8

/-! ### All commands -/

/-- R12: every command completes with exactly one outcome, reported in `STATUS.ERR`. -/
def Obligations.EveryCommandHasOneOutcome : Prop :=
  ∀ (i : Instr) (s : State), ∃ t, exec i s = .next t ∧
    ((t.status = 0#8 ∧ ∀ k : ErrKind, t.status ≠ k.code) ∨
      (t.status ≠ 0#8 ∧ ∃! k : ErrKind, t.status = k.code))

/-- R214: which command can end with which outcome. -/
def Obligations.OutcomesPerCommand : Prop :=
  (∀ (i : Instr) (s t : State), i = .nop ∨ i = .ckgen ∨ i = .penc → exec i s = .next t →
    t.status = 0#8) ∧
  (∀ s t : State, exec .ckver s = .next t → t.status = 0#8 ∨ t.status = 7#8) ∧
  (∀ s t : State, exec .fenc s = .next t → t.status = 0#8 ∨ t.status = 12#8) ∧
  (∀ s t : State, exec .fdec s = .next t →
    t.status = 0#8 ∨ t.status = 7#8 ∨ t.status = 1#8 ∨ t.status = 2#8 ∨ t.status = 3#8 ∨
      t.status = 4#8) ∧
  (∀ s t : State, exec .pdec s = .next t → s.slen ≤ 290 → t.status = 11#8) ∧
  (∀ s t : State, exec .pdec s = .next t → s.slen = 291 →
    t.status = 0#8 ∨ t.status = 5#8 ∨ t.status = 6#8 ∨ t.status = 7#8) ∧
  (∀ s t : State, exec .pdec s = .next t → s.slen = 583 →
    t.status = 0#8 ∨ t.status = 7#8 ∨ t.status = 8#8 ∨ t.status = 10#8 ∨
      (t.status = 6#8 ∧ ¬Spec.window (s.sample 291) s.cfg.tRptSpace (2 * s.tol.toNat))) ∧
  (∀ s t : State, exec .pdec s = .next t → 292 ≤ s.slen → s.slen ≠ 583 →
    t.status = 0#8 ∨ t.status = 7#8 ∨ t.status = 9#8) ∧
  (∀ (s t : State) (w : Byte) (e : DecodeError), decode w = .error e → issue w s = .next t →
    t.status = 13#8)

/-- R219: a failing command writes its code, leaves at most `F` unspecified, and changes nothing else;
CKVER, FDEC and a reserved word leave `F` unchanged. `draws` is the model's own counter (log 4). -/
def Obligations.FailingCommandEffects : Prop :=
  (∀ (i : Instr) (s t : State), exec i s = .next t → t.status ≠ 0#8 →
    (∃ k : ErrKind, t.status = k.code) ∧
    t = { s with status := t.status, frame := t.frame, draws := t.draws } ∧
    (i = .ckver ∨ i = .fdec → t.frame = s.frame)) ∧
  (∀ (s t : State) (w : Byte) (e : DecodeError), decode w = .error e → issue w s = .next t →
    t.status = 13#8 ∧ t = { s with status := t.status })

/-- R42: no command reads `STATUS`. -/
def Obligations.StatusIsNeverRead : Prop :=
  ∀ (i : Instr) (s : State) (x : Byte), exec i { s with status := x } = exec i s

/-- The 'written by' column of R48, and the frame of every command: no command writes `TOL`,
`ST.clockSetting` (nor what a read of it returns, log 8), the configuration or the host's side; only PENC
writes `S` and `SLEN`; only FDEC writes the ST registers; only FENC, CKGEN and PDEC write `F`, CKGEN byte 17
only. -/
def Obligations.CommandsWriteOnlyTheirDestinations : Prop :=
  ∀ (i : Instr) (s t : State), exec i s = .next t →
    t.tol = s.tol ∧ t.st.clockSetting = s.st.clockSetting ∧ t.clockDraw = s.clockDraw ∧
    t.cfg = s.cfg ∧ t.host = s.host ∧
    (i ≠ .penc → t.slen = s.slen ∧ ∀ a, t.sample a = s.sample a) ∧
    (i = .penc → ∀ a, 583 ≤ a → t.sample a = s.sample a) ∧
    (i ≠ .fdec → t.st = s.st) ∧
    (i ≠ .fenc → i ≠ .ckgen → i ≠ .pdec → t.frame = s.frame) ∧
    (i = .ckgen → ∀ b < 17, frameByte t.frame b = frameByte s.frame b)

/-! ### NOP, CKGEN, CKVER -/

/-- R200. -/
def Obligations.NopClearsStatus : Prop :=
  ∀ s : State, exec .nop s = .next { s with status := 0#8 }

/-- R121: CKGEN writes the truncated sum of bytes 0 to 16 into byte 17 and nothing else. -/
def Obligations.CkgenWritesChecksum : Prop :=
  ∀ s : State, exec .ckgen s = .next
    { s with frame := s.frame.set 17 (Spec.cksumOf (frameByte s.frame)), status := 0#8 }

/-- R122: CKVER compares byte 17 with the truncated sum and writes nothing but `STATUS`. -/
def Obligations.CkverComparesChecksum : Prop :=
  ∀ s : State, exec .ckver s = .next
    { s with status :=
        if frameByte s.frame 17 ≠ Spec.cksumOf (frameByte s.frame) then 7#8 else 0#8 }

/-- R120: the sum is at most 4335, adding modulo 256 at every step gives the same, and byte 17 is no part
of it. -/
def Obligations.ChecksumIsTruncatedSum : Prop :=
  ∀ f : Frame,
    cksum f = BitVec.ofNat 8 (Spec.byteSum (frameByte f)) ∧
    Spec.byteSum (frameByte f) ≤ 4335 ∧
    cksum f = (List.range 17).foldl (fun acc i => acc + frameByte f i) 0#8 ∧
    ∀ b : Byte, cksum (f.set 17 b) = cksum f

/-- R121, R122: after CKGEN byte 17 is the truncated sum of the frame and the outcome is `Ok`, and CKVER then
ends `Ok` and leaves that state as it is. -/
def Obligations.CkverAcceptsAfterCkgen : Prop :=
  ∀ s : State, ∃ t, exec .ckgen s = .next t ∧ t.status = 0#8 ∧
    frameByte t.frame 17 = Spec.cksumOf (frameByte s.frame) ∧
    frameByte t.frame 17 = Spec.cksumOf (frameByte t.frame) ∧ exec .ckver t = .next t

/-! ### FENC -/

/-- R123, R126: FENC ends `PreconditionViolation` exactly when one of the five range tests fails; then
`F` is unspecified and nothing else changes (`draws` is the model's own, log 4). -/
def Obligations.FencChecksPreconditions : Prop :=
  ∀ s : State,
    let outOfRange : Prop :=
      s.st.temperature.toNat < 16 ∨ 31 < s.st.temperature.toNat ∨ 3 < s.st.fanSpeed.toNat ∨
      (s.st.clockSetting.auto = false ∧ 143 < s.st.clockSetting.value.toNat) ∨
      (s.st.clockSetting.auto = true ∧ (23 < s.host.wcHour.toNat ∨ 59 < s.host.wcMin.toNat)) ∨
      143 < s.st.timerEndTime.toNat ∨ 143 < s.st.timerStartTime.toNat
    (outOfRange → ∃ F d, exec .fenc s = .next { s with frame := F, draws := d, status := 12#8 }) ∧
    (¬outOfRange → ∃ F, exec .fenc s = .next { s with frame := F, status := 0#8 })

/-- R124: the eighteen bytes of FENC, and that nothing but `F` and `STATUS` changes. -/
def Obligations.FencComputesFrameBytes : Prop :=
  ∀ s : State, s.FencLegal →
    ∃ F : Frame, exec .fenc s = .next { s with frame := F, status := 0#8 } ∧
      let st := s.st
      frameByte F 0 = 0x23#8 ∧ frameByte F 1 = 0xCB#8 ∧ frameByte F 2 = 0x26#8 ∧
      frameByte F 3 = 0x01#8 ∧ frameByte F 4 = 0x00#8 ∧
      frameByte F 5 = (if st.on = true then 0x20#8 else 0x00#8) ∧
      frameByte F 6 =
        (match st.mode with | .auto => 0x20#8 | .heat => 0x08#8 | .dry => 0x10#8 | .cool => 0x18#8) |||
          (if st.isee = true then 0x40#8 else 0x00#8) ∧
      (frameByte F 7).toNat = st.temperature.toNat - 16 ∧
      frameByte F 8 = Spec.mode2Of st.mode |||
        (match st.wideVane with
          | .leftEnd => 0x10#8 | .left => 0x20#8 | .middle => 0x30#8 | .right => 0x40#8
          | .rightEnd => 0x50#8 | .sides => 0x80#8 | .swing => 0xC0#8) ∧
      frameByte F 9 = st.fanSpeed |||
        (if (st.econoCool = true ∧ st.mode = .cool) ∨ st.longMode = true then 0x40#8
          else match st.vane with
            | .upEnd => 0x48#8 | .up => 0x50#8 | .middle => 0x58#8 | .down => 0x60#8
            | .downEnd => 0x68#8 | .swing => 0x78#8 | .auto => 0x40#8) ∧
      (frameByte F 10).toNat =
        (if st.clockSetting.auto = true then s.host.wcHour.toNat * 6 + s.host.wcMin.toNat / 10
          else st.clockSetting.value.toNat) ∧
      frameByte F 11 = st.timerEndTime ∧ frameByte F 12 = st.timerStartTime ∧
      frameByte F 13 = 0x00#8 ∧
      frameByte F 14 =
        (if st.econoCool = true ∧ st.mode = .cool ∧ st.longMode = false then 0x20#8 else 0x00#8) |||
          (if st.cleanMode = true then 0x04#8 else 0x00#8) ∧
      frameByte F 15 = (if st.longMode = true then 0x10#8 else 0x00#8) |||
        (if st.plasma = true then 0x04#8 else 0x00#8) ∧
      frameByte F 16 = 0x00#8 ∧
      frameByte F 17 = Spec.cksumOf (frameByte F)

/-- R125: FENC reads neither `ST.timerProgram` nor `ST.lastObservedClock`, reads the wall clock only when the
clock is automatic and `ST.clockSetting.value` only when it is not (R31), and reads nothing of `S`, `SLEN`,
`F`, `TOL`: two states that agree on the rest end alike. It writes no state register. -/
def Obligations.FencReadsOnlyItsInputs : Prop :=
  ∀ s t : State,
    s.st = { t.st with timerProgram := s.st.timerProgram,
                       lastObservedClock := s.st.lastObservedClock,
                       clockSetting := s.st.clockSetting } →
    s.st.clockSetting.auto = t.st.clockSetting.auto →
    (s.st.clockSetting.auto = false → s.st.clockSetting.value = t.st.clockSetting.value) →
    (s.st.clockSetting.auto = true → s.host.wcHour = t.host.wcHour ∧ s.host.wcMin = t.host.wcMin) →
    ∃ s' t', exec .fenc s = .next s' ∧ exec .fenc t = .next t' ∧ s'.status = t'.status ∧
      (s'.status = 0#8 → s'.frame = t'.frame) ∧ s'.st = s.st ∧ s'.slen = s.slen ∧
      s'.tol = s.tol ∧ ∀ a, s'.sample a = s.sample a

/-- R127: the cross-field invariants are normalised in the frame. -/
def Obligations.FencNormalisesInvariants : Prop :=
  ∀ s : State, s.FencLegal →
    ∃ F : Frame, exec .fenc s = .next { s with frame := F, status := 0#8 } ∧
      (s.st.econoCool = true → s.st.mode = .cool → s.st.longMode = false →
        frameByte F 9 &&& 0xF8#8 = 0x40#8 ∧ frameByte F 14 &&& 0x20#8 = 0x20#8) ∧
      (s.st.econoCool = true → s.st.mode ≠ .cool → s.st.longMode = false →
        Spec.vaneOf (frameByte F 9 &&& 0xF8#8) = some s.st.vane ∧
        frameByte F 9 &&& 0xF8#8 ≠ 0x00#8 ∧ frameByte F 14 &&& 0x20#8 = 0x00#8 ∧
        Spec.modeOf (frameByte F 6 &&& 0x38#8) = some s.st.mode) ∧
      (s.st.longMode = true →
        frameByte F 9 &&& 0xF8#8 = 0x40#8 ∧ frameByte F 15 &&& 0x10#8 = 0x10#8 ∧
        frameByte F 14 &&& 0x20#8 = 0x00#8)

/-! ### FDEC -/

/-- R130 to R141: FDEC reports the first failing check and writes nothing but `STATUS`, or commits the
fifteen registers. -/
def Obligations.FdecDecodesFrame : Prop :=
  ∀ s : State,
    let F := frameByte s.frame
    (Spec.fdecStatus s.cfg F ≠ 0#8 →
      exec .fdec s = .next { s with status := Spec.fdecStatus s.cfg F }) ∧
    (Spec.fdecStatus s.cfg F = 0#8 →
      ∃ mode wideVane vane program,
        Spec.modeOf (F 6 &&& 0x38#8) = some mode ∧
        Spec.wideVaneOf (F 8 &&& 0xF0#8) = some wideVane ∧
        Spec.vaneOf (F 9 &&& 0xF8#8) = some vane ∧
        Spec.timerProgramOf s.cfg (F 13) = some program ∧
        exec .fdec s = .next { s with
          status := 0#8
          st :=
            { on := decide (F 5 = 0x20#8), mode := mode, isee := (F 6).getLsbD 6,
              temperature := F 7 + 16#8, wideVane := wideVane, fanSpeed := F 9 &&& 0x07#8,
              vane := vane, clockSetting := s.st.clockSetting,
              lastObservedClock := ⟨true, F 10⟩, timerEndTime := F 11, timerStartTime := F 12,
              timerProgram := program, econoCool := (F 14).getLsbD 5,
              longMode := (F 15).getLsbD 4, cleanMode := (F 14).getLsbD 2,
              plasma := (F 15).getLsbD 2 } })

/-- R128, R129: FDEC ends with the first failing check in the order of R128, the checksum the first of
them; no state register is written unless all twelve pass, and `F` never is. -/
def Obligations.FdecIsAllOrNothing : Prop :=
  ∀ s : State, ∃ t, exec .fdec s = .next t ∧ t.frame = s.frame ∧
    t.status = Spec.fdecStatus s.cfg (frameByte s.frame) ∧
    (t.status ≠ 0#8 → t = { s with status := t.status }) ∧
    (frameByte s.frame 17 ≠ Spec.cksumOf (frameByte s.frame) ↔ t.status = 7#8)

/-- R47: after a successful FDEC the registers it writes satisfy the first three invariants. -/
def Obligations.FdecSuccessIsConsistent : Prop :=
  ∀ s t : State, exec .fdec s = .next t → t.status = 0#8 →
    t.st.InRange ∧ t.st.Consistent ∧ t.st.lastObservedClock.valid = true ∧
      t.st.lastObservedClock.value.toNat ≤ 143

/-- R143: FENC then FDEC gives back the state, for a valid state and, with the normalisations the rule
names, for one that is not valid. -/
def Obligations.FrameRoundTrip : Prop :=
  ∀ s : State, s.FencLegal →
    ∃ t u, exec .fenc s = .next t ∧ exec .fdec t = .next u ∧ t.status = 0#8 ∧ u.status = 0#8 ∧
      u.st.on = s.st.on ∧ u.st.mode = s.st.mode ∧ u.st.isee = s.st.isee ∧
      u.st.temperature = s.st.temperature ∧ u.st.wideVane = s.st.wideVane ∧
      u.st.fanSpeed = s.st.fanSpeed ∧ u.st.timerEndTime = s.st.timerEndTime ∧
      u.st.timerStartTime = s.st.timerStartTime ∧ u.st.cleanMode = s.st.cleanMode ∧
      u.st.plasma = s.st.plasma ∧ u.st.longMode = s.st.longMode ∧
      u.st.clockSetting = s.st.clockSetting ∧
      u.st.lastObservedClock = ⟨true, frameByte t.frame 10⟩ ∧ u.st.timerProgram = .none ∧
      u.st.vane = (if (s.st.econoCool = true ∧ s.st.mode = .cool) ∨ s.st.longMode = true then .auto
        else s.st.vane) ∧
      (u.st.econoCool = true ↔
        s.st.econoCool = true ∧ s.st.mode = .cool ∧ s.st.longMode = false) ∧
      (s.st.Valid → u.st.vane = s.st.vane ∧ u.st.econoCool = s.st.econoCool)

/-! ### PENC -/

/-- R160: the 583 samples PENC writes, `SLEN`, and that nothing else changes. -/
def Obligations.PencWritesTrain : Prop :=
  ∀ s : State, ∃ t, exec .penc s = .next t ∧
    t = { s with samples := t.samples, slen := 583, status := 0#8 } ∧
    (∀ base, base = 0 ∨ base = 292 →
      t.sample base = s.cfg.tHdrMark ∧ t.sample (base + 1) = s.cfg.tHdrSpace ∧
      (∀ k < 144, t.sample (base + 2 + 2 * k) = s.cfg.tBitMark ∧
        t.sample (base + 3 + 2 * k) =
          (if Spec.bit (frameByte s.frame) k = true then s.cfg.tOneSpace else s.cfg.tZeroSpace)) ∧
      t.sample (base + 290) = s.cfg.tRptMark) ∧
    t.sample 291 = s.cfg.tRptSpace ∧
    ∀ a, 583 ≤ a → t.sample a = s.sample a

/-- R161 (b), (c), (d), (e): the train is a unit, a repeat space and the same unit again; its length is
odd and its last sample is a mark; every sample is one of the seven timing constants. -/
def Obligations.PencTrainIsDuplicated : Prop :=
  ∀ s : State, ∃ t, exec .penc s = .next t ∧ t.slen = 583 ∧ t.slen % 2 = 1 ∧
    t.sample 582 = s.cfg.tRptMark ∧ (∀ p ≤ 290, t.sample (292 + p) = t.sample p) ∧
    (∀ a < 583, t.sample a = s.cfg.tHdrMark ∨ t.sample a = s.cfg.tHdrSpace ∨
      t.sample a = s.cfg.tBitMark ∨ t.sample a = s.cfg.tZeroSpace ∨ t.sample a = s.cfg.tOneSpace ∨
      t.sample a = s.cfg.tRptMark ∨ t.sample a = s.cfg.tRptSpace) ∧
    t.frame = s.frame ∧ t.st = s.st ∧ t.tol = s.tol

/-! ### PDEC and its parts -/

/-- R162, R169: the dispatch on `SLEN` alone, `F` and `STATUS` on each outcome, and that nothing else
changes (`draws` is the model's own, log 4). -/
def Obligations.PdecDispatchesOnLength : Prop :=
  ∀ s : State,
    let w := (List.range s.slen).map s.sample
    let tol := s.tol.toNat
    let r := if s.slen = 583 then decodeTrain s.cfg tol w
      else if s.slen = 291 then decodeUnit s.cfg tol w
      else if 292 ≤ s.slen then headerSearch s.cfg tol w
      else .error .invalidLength
    (∀ f, r = .ok f → exec .pdec s = .next { s with frame := f, status := 0#8 }) ∧
    (∀ k, r = .error k →
      ∃ F d, exec .pdec s = .next { s with frame := F, draws := d, status := k.code })

/-- R163: the tolerance window is open at both ends, and empty for `w = 0`. -/
def Obligations.ToleranceWindowIsOpen : Prop :=
  ∀ v e w : Nat,
    (tolMatch v e w = true ↔ |(v : ℤ) - (e : ℤ)| < (w : ℤ)) ∧
    (tolMatch v e w = true ↔ (e : ℤ) - w < v ∧ (v : ℤ) < e + w) ∧
    tolMatch v e 0 = false ∧
    (1 ≤ w → tolMatch (e + w - 1) e w = true ∧ tolMatch (e + w) e w = false) ∧
    (1 ≤ w → w ≤ e → tolMatch (e - w + 1) e w = true ∧ tolMatch (e - w) e w = false)

/-- R7: two windows of half-width `w >= 1` share no duration exactly when their centres are at least
`2*w - 1` apart. -/
def Obligations.WellSeparatedWindowsAreDisjoint : Prop :=
  ∀ z o w : Nat, 1 ≤ w →
    ((∀ v : Nat, ¬(tolMatch v z w = true ∧ tolMatch v o w = true)) ↔ 2 * w - 1 ≤ absDiff o z)

/-- R164: a space is a zero or a one only when it lies in exactly one of the two windows. -/
def Obligations.SpaceClassification : Prop :=
  ∀ (c : Config) (tol : Nat) (v : Sample),
    (Spec.isZeroSpace c tol v → classifySpace c tol v = .ok false) ∧
    (Spec.isOneSpace c tol v → classifySpace c tol v = .ok true) ∧
    (¬Spec.isZeroSpace c tol v → ¬Spec.isOneSpace c tol v →
      classifySpace c tol v = .error .badTiming)

/-- R172: the upper edge of the zero window; 'must decode as zero' is stated where the windows are well
separated for the tolerance (R7). -/
def Obligations.ZeroWindowUpperEdge : Prop :=
  ∀ (c : Config) (tol : Nat) (v : Sample), 1 ≤ tol →
    (2 * tol - 1 ≤ Spec.gap c → v.toNat = c.tZeroSpace.toNat + tol - 1 →
      classifySpace c tol v = .ok false) ∧
    (c.tZeroSpace.toNat + tol ≤ v.toNat → ¬Spec.window v c.tOneSpace tol →
      classifySpace c tol v = .error .badTiming)

/-- R165: pairs in order of arrival, mark before space, first failure reported; then the bytes, bit 0
first; then the checksum. -/
def Obligations.BitDecoding : Prop :=
  ∀ (c : Config) (tol : Nat) (d : List Sample), d.length = 288 →
    (∀ k < 144, (∀ j < k, Spec.goodPair c tol d j) →
      ¬Spec.window (sampleAt d (2 * k)) c.tBitMark tol → bitDecode c tol d = .error .badMark) ∧
    (∀ k < 144, (∀ j < k, Spec.goodPair c tol d j) →
      Spec.window (sampleAt d (2 * k)) c.tBitMark tol → ¬Spec.goodPair c tol d k →
      bitDecode c tol d = .error .badTiming) ∧
    ((∀ k < 144, Spec.goodPair c tol d k) →
      ∀ f : Frame,
        (∀ k < 144, Spec.bit (frameByte f) k = true ↔ Spec.isOneSpace c tol (sampleAt d (2 * k + 1))) →
        bitDecode c tol d =
          if frameByte f 17 = Spec.cksumOf (frameByte f) then .ok f else .error .checksumError)

/-- R166: the three framing samples in order, then the 288 interior values. -/
def Obligations.UnitDecoding : Prop :=
  ∀ (c : Config) (tol : Nat) (u : List Sample), u.length = 291 →
    (¬Spec.window (sampleAt u 0) c.tHdrMark (2 * tol) → decodeUnit c tol u = .error .badMark) ∧
    (Spec.window (sampleAt u 0) c.tHdrMark (2 * tol) →
      ¬Spec.window (sampleAt u 1) c.tHdrSpace (2 * tol) → decodeUnit c tol u = .error .badTiming) ∧
    (Spec.window (sampleAt u 0) c.tHdrMark (2 * tol) →
      Spec.window (sampleAt u 1) c.tHdrSpace (2 * tol) →
      ¬Spec.window (sampleAt u 290) c.tRptMark (2 * tol) → decodeUnit c tol u = .error .badMark) ∧
    (Spec.window (sampleAt u 0) c.tHdrMark (2 * tol) →
      Spec.window (sampleAt u 1) c.tHdrSpace (2 * tol) →
      Spec.window (sampleAt u 290) c.tRptMark (2 * tol) →
      decodeUnit c tol u = bitDecode c tol ((List.range 288).map fun p => sampleAt u (2 + p)))

/-- R167: the separator first, then the outcome table of the two halves; a half can fail only
structurally or with `ChecksumError`. -/
def Obligations.ArbiterOutcomeTable : Prop :=
  ∀ (c : Config) (tol : Nat) (t : List Sample), t.length = 583 →
    let a := decodeUnit c tol ((List.range 291).map fun p => sampleAt t p)
    let b := decodeUnit c tol ((List.range 291).map fun p => sampleAt t (292 + p))
    let structural := fun r : Except ErrKind Frame => r = .error .badMark ∨ r = .error .badTiming
    (¬Spec.window (sampleAt t 291) c.tRptSpace (2 * tol) →
      decodeTrain c tol t = .error .badTiming) ∧
    (Spec.window (sampleAt t 291) c.tRptSpace (2 * tol) →
      (a = .error .checksumError ∨ b = .error .checksumError →
        decodeTrain c tol t = .error .checksumError) ∧
      (∀ fa fb, a = .ok fa → b = .ok fb → (∀ i < 18, frameByte fa i = frameByte fb i) →
        decodeTrain c tol t = .ok fa) ∧
      (∀ fa fb, a = .ok fa → b = .ok fb → ¬(∀ i < 18, frameByte fa i = frameByte fb i) →
        decodeTrain c tol t = .error .repeatMismatch) ∧
      (∀ fa, a = .ok fa → structural b → decodeTrain c tol t = .ok fa) ∧
      (∀ fb, structural a → b = .ok fb → decodeTrain c tol t = .ok fb) ∧
      (structural a → structural b → decodeTrain c tol t = .error .noValidFrame)) ∧
    (∀ k, a = .error k ∨ b = .error k → k = .badMark ∨ k = .badTiming ∨ k = .checksumError)

/-- R168: ascending offsets, both parities; the first success wins, `ChecksumError` ends the search, a
structural failure goes on. -/
def Obligations.HeaderSearchFirstSuccess : Prop :=
  ∀ (c : Config) (tol : Nat) (w : List Sample), 292 ≤ w.length →
    (∀ o f, o ≤ w.length - 291 → (∀ o' < o, Spec.passedOver c tol w o') →
      Spec.window (sampleAt w o) c.tHdrMark (2 * tol) → decodeUnit c tol (slice w o 291) = .ok f →
      headerSearch c tol w = .ok f) ∧
    (∀ o, o ≤ w.length - 291 → (∀ o' < o, Spec.passedOver c tol w o') →
      Spec.window (sampleAt w o) c.tHdrMark (2 * tol) →
      decodeUnit c tol (slice w o 291) = .error .checksumError →
      headerSearch c tol w = .error .checksumError) ∧
    ((∀ o, o ≤ w.length - 291 → Spec.passedOver c tol w o) →
      headerSearch c tol w = .error .noHeaderFound)

/-- R169: on `Ok` the recovered frame carries a correct checksum; whatever the outcome, `S`, `SLEN`, `TOL`
and every state register are unchanged. -/
def Obligations.PdecRecoversChecksummedFrame : Prop :=
  ∀ s : State, ∃ t, exec .pdec s = .next t ∧
    (t.status = 0#8 → frameByte t.frame 17 = Spec.cksumOf (frameByte t.frame)) ∧
    t.st = s.st ∧ t.slen = s.slen ∧ t.tol = s.tol ∧ ∀ a, t.sample a = s.sample a

/-- R170 (a): with `TOL = 0` every window is empty, so the first test of each case fails. -/
def Obligations.ZeroToleranceOutcomes : Prop :=
  ∀ s : State, s.tol = 0#16 →
    (s.slen = 291 → ∃ F d, exec .pdec s = .next { s with frame := F, draws := d, status := 5#8 }) ∧
    (s.slen = 583 → ∃ F d, exec .pdec s = .next { s with frame := F, draws := d, status := 6#8 }) ∧
    (292 ≤ s.slen → s.slen ≠ 583 →
      ∃ F d, exec .pdec s = .next { s with frame := F, draws := d, status := 9#8 })

/-- R171: with a tolerance of at least 1 and at most the one/zero gap, PENC then PDEC gives back a frame
that carries its checksum, and `ChecksumError` for one that does not. -/
def Obligations.PulseRoundTrip : Prop :=
  ∀ s : State, 1 ≤ s.tol.toNat → s.tol.toNat ≤ Spec.gap s.cfg →
    ∃ t u, exec .penc s = .next t ∧ exec .pdec t = .next u ∧
      (frameByte s.frame 17 = Spec.cksumOf (frameByte s.frame) → u = { t with status := 0#8 } ∧
        u.frame = s.frame) ∧
      (frameByte s.frame 17 ≠ Spec.cksumOf (frameByte s.frame) → u.status = 7#8)

/-- R170 (b): outside that range of tolerances a train of PENC never decodes: `BadTiming` (the separator)
with `TOL = 0`, `NoValidFrame` with `TOL` above the gap. -/
def Obligations.RoundTripToleranceLimits : Prop :=
  ∀ s : State,
    (s.tol.toNat = 0 → ∃ t u, exec .penc s = .next t ∧ exec .pdec t = .next u ∧ u.status = 6#8) ∧
    (Spec.gap s.cfg < s.tol.toNat →
      ∃ t u, exec .penc s = .next t ∧ exec .pdec t = .next u ∧ u.status = 10#8)

/-- R173: PDEC on two units with a valid repeat gap between them: the frame if both decode to it;
`RepeatMismatch` if they decode to different frames (`draws` is the model's own, log 4). -/
def Obligations.RepeatedUnitsReconcile : Prop :=
  ∀ (s : State) (u v : List Sample) (sep : Sample) (f g : Frame),
    (List.range s.slen).map s.sample = u ++ [sep] ++ v → u.length = 291 → v.length = 291 →
    decodeUnit s.cfg s.tol.toNat u = .ok f → decodeUnit s.cfg s.tol.toNat v = .ok g →
    Spec.window sep s.cfg.tRptSpace (2 * s.tol.toNat) →
    (f = g → exec .pdec s = .next { s with frame := f, status := 0#8 }) ∧
    (f ≠ g → ∃ F d, exec .pdec s = .next { s with frame := F, draws := d, status := 8#8 })

/-- R174: PDEC on a good unit behind junk that never looks like a header mark finds it, for every count of
junk but 292, where the window is taken for a train (`draws` is the model's own, log 4). -/
def Obligations.HeaderSearchSkipsJunk : Prop :=
  ∀ (s : State) (junk u : List Sample) (f : Frame),
    (List.range s.slen).map s.sample = junk ++ u → u.length = 291 →
    decodeUnit s.cfg s.tol.toNat u = .ok f →
    (∀ x ∈ junk, ¬Spec.window x s.cfg.tHdrMark (2 * s.tol.toNat)) →
    (junk.length ≠ 292 → exec .pdec s = .next { s with frame := f, status := 0#8 }) ∧
    (junk.length = 292 → Spec.window (sampleAt junk 291) s.cfg.tRptSpace (2 * s.tol.toNat) →
      exec .pdec s = .next { s with frame := f, status := 0#8 }) ∧
    (junk.length = 292 → ¬Spec.window (sampleAt junk 291) s.cfg.tRptSpace (2 * s.tol.toNat) →
      ∃ F d, exec .pdec s = .next { s with frame := F, draws := d, status := 6#8 })

/-! ### What a command reads -/

/-- R21: PDEC reads no element at an index of `SLEN` or more, and no state register: two states that agree
on the configuration, `TOL`, `SLEN` and `S[0..SLEN-1]` end alike. -/
def Obligations.PdecReadsOnlyTheWindow : Prop :=
  ∀ s t : State, s.cfg = t.cfg → s.tol = t.tol → s.slen = t.slen →
    (∀ a < s.slen, s.sample a = t.sample a) →
    ∃ s' t', exec .pdec s = .next s' ∧ exec .pdec t = .next t' ∧ s'.status = t'.status ∧
      (s'.status = 0#8 → s'.frame = t'.frame)

/-- The 'read by' column of R48 for `F`: CKGEN, CKVER, FDEC and PENC read nothing but `F` (and the
configuration): two states that agree on these end alike. -/
def Obligations.FrameCommandsReadOnlyTheFrame : Prop :=
  ∀ s t : State, s.cfg = t.cfg → s.frame = t.frame →
    ∀ i, i = .ckgen ∨ i = .ckver ∨ i = .fdec ∨ i = .penc →
      ∃ s' t', exec i s = .next s' ∧ exec i t = .next t' ∧ s'.status = t'.status ∧
        s'.frame = t'.frame ∧
        (i = .fdec → s'.status = 0#8 →
          s'.st = { t'.st with clockSetting := s.st.clockSetting }) ∧
        (i = .penc → ∀ a < 583, s'.sample a = t'.sample a)

/-! ### The host boundary -/

/-- R49: the enumeration registers are written by index in the order of the table; a write of the
reserved index 7 has no step. -/
def Obligations.HostEnumerationWrites : Prop :=
  ∀ s : State,
    (∀ i, ∃ m, ([.auto, .heat, .dry, .cool] : List Mode)[i.toNat]? = some m ∧
      hostMove (.writeSt (.mode i)) s = .next { s with st := { s.st with mode := m } }) ∧
    (∀ i, ∃ p, ([.none, .start, .stop, .startAndEnd] : List TimerProgram)[i.toNat]? = some p ∧
      hostMove (.writeSt (.timerProgram i)) s =
        .next { s with st := { s.st with timerProgram := p } }) ∧
    (∀ i, (i.toNat = 7 → hostMove (.writeSt (.wideVane i)) s = .refused .reservedIndex) ∧
      (i.toNat ≠ 7 →
        ∃ v, ([.leftEnd, .left, .middle, .right, .rightEnd, .sides, .swing] :
            List WideVane)[i.toNat]? = some v ∧
          hostMove (.writeSt (.wideVane i)) s =
            .next { s with st := { s.st with wideVane := v } })) ∧
    (∀ i, (i.toNat = 7 → hostMove (.writeSt (.vane i)) s = .refused .reservedIndex) ∧
      (i.toNat ≠ 7 →
        ∃ v, ([.upEnd, .up, .middle, .down, .downEnd, .swing, .auto] :
            List Vane)[i.toNat]? = some v ∧
          hostMove (.writeSt (.vane i)) s = .next { s with st := { s.st with vane := v } }))

/-- The host's writes of the other registers and its drive of the wall-clock ports (R24 to R43, R48): each
writes that register alone; `ST.lastObservedClock` is read-only to the host (R32, U5). Three parts are the
model's choices: the refusal of a write of `STATUS` (log 10); that `ST.clockSetting.value` is stored while
`auto` is 1 and kept by a write of `auto` (log 12); that the host's side keeps the driven ports (log 6).
A write of `ST.clockSetting` also draws anew what a read of its unspecified value returns (log 8). -/
def Obligations.HostRegisterWrites : Prop :=
  ∀ (s : State) (b : Bool) (v : Byte) (t : BitVec 16) (hour : BitVec 5) (minute : BitVec 6),
    hostMove (.writeSt (.on b)) s = .next { s with st := { s.st with on := b } } ∧
    hostMove (.writeSt (.isee b)) s = .next { s with st := { s.st with isee := b } } ∧
    hostMove (.writeSt (.temperature v)) s = .next { s with st := { s.st with temperature := v } } ∧
    hostMove (.writeSt (.fanSpeed v)) s = .next { s with st := { s.st with fanSpeed := v } } ∧
    (∃ c d, hostMove (.writeSt (.clockAuto b)) s =
      .next { s with st := { s.st with clockSetting := ⟨b, s.st.clockSetting.value⟩ },
                     clockDraw := c, draws := d }) ∧
    (∃ c d, hostMove (.writeSt (.clockValue v)) s =
      .next { s with st := { s.st with clockSetting := ⟨s.st.clockSetting.auto, v⟩ },
                     clockDraw := c, draws := d }) ∧
    hostMove (.writeSt (.timerEndTime v)) s = .next { s with st := { s.st with timerEndTime := v } } ∧
    hostMove (.writeSt (.timerStartTime v)) s =
      .next { s with st := { s.st with timerStartTime := v } } ∧
    hostMove (.writeSt (.econoCool b)) s = .next { s with st := { s.st with econoCool := b } } ∧
    hostMove (.writeSt (.longMode b)) s = .next { s with st := { s.st with longMode := b } } ∧
    hostMove (.writeSt (.cleanMode b)) s = .next { s with st := { s.st with cleanMode := b } } ∧
    hostMove (.writeSt (.plasma b)) s = .next { s with st := { s.st with plasma := b } } ∧
    hostMove (.writeTol t) s = .next { s with tol := t } ∧
    hostMove (.driveClock hour minute) s =
      .next { s with host := { s.host with wcHour := hour, wcMin := minute } } ∧
    hostMove (.writeSt (.lastObservedValid b)) s = .refused .readOnlyRegister ∧
    hostMove (.writeSt (.lastObservedValue v)) s = .refused .readOnlyRegister ∧
    hostMove (.writeStatus v) s = .refused .readOnlyRegister

/-- R22, U2: a host write of `SLEN` is refused above `S_CAP`; else it sets `SLEN` and leaves alone every
sample below the new length and every sample the host itself wrote last. What it does to the others is
the model's choice (log 7). -/
def Obligations.HostSlenWrite : Prop :=
  ∀ (s : State) (n : Nat),
    (s.cfg.sCap < n → hostMove (.writeSlen n) s = .refused .slenBeyondCapacity) ∧
    (n ≤ s.cfg.sCap → ∃ t, hostMove (.writeSlen n) s = .next t ∧
      t = { s with samples := t.samples, slen := n, draws := t.draws } ∧
      (∀ a < n, t.sample a = s.sample a) ∧
      ∀ a cell, findCell s.samples a = some cell → cell.byHost = true → t.sample a = s.sample a)

/-- R21, R23, R60: a host write of one sample or of one frame byte changes that element alone; an index
outside the space does not exist. -/
def Obligations.HostElementWrites : Prop :=
  ∀ (s : State) (a : Nat),
    (∀ v, a < s.cfg.sCap → ∃ t, hostMove (.writeSample a v) s = .next t ∧
      t = { s with samples := t.samples } ∧ t.sample a = v ∧ ∀ b ≠ a, t.sample b = s.sample b) ∧
    (∀ v, s.cfg.sCap ≤ a → hostMove (.writeSample a v) s = .refused .noSuchElement) ∧
    (∀ v, a < 18 → ∃ t, hostMove (.writeFrame a v) s = .next t ∧
      t = { s with frame := t.frame } ∧ frameByte t.frame a = v ∧
      ∀ b, b ≠ a → frameByte t.frame b = frameByte s.frame b) ∧
    (∀ v, 18 ≤ a → hostMove (.writeFrame a v) s = .refused .noSuchElement)

/-- R67, R48, R49: a host read of an element that exists returns its value and changes nothing of HPIR, and
a second read of it returns the same; a read of `CMD` returns an unspecified value (R41, U3), and is the one
read that uses up a draw. An index outside `S` or `F` does not exist (R60, U7). What a read returned stands
in the host's side, and `draws` is the model's own (log 4, 8). -/
def Obligations.HostReadChangesNothing : Prop :=
  ∀ s : State,
    (∀ e : Element, (∀ a, e = .sample a → a < s.cfg.sCap) → (∀ a, e = .frame a → a < 18) →
      ∃ v t, hostMove (.read e) s = .next t ∧ t.host = { s.host with lastRead := some v } ∧
        t = { s with host := t.host, draws := t.draws } ∧
        (e ≠ .cmd → t.draws = s.draws ∧ hostMove (.read e) t = .next t) ∧
        (∀ a, e = .sample a → v = (s.sample a).toNat) ∧
        (∀ a, e = .frame a → v = (frameByte s.frame a).toNat) ∧
        (∀ f, e = .st f → Spec.stReads s.st v f) ∧
        (e = .slen → v = s.slen) ∧ (e = .tol → v = s.tol.toNat) ∧
        (e = .status → v = s.status.toNat)) ∧
    (∀ a, s.cfg.sCap ≤ a → hostMove (.read (.sample a)) s = .refused .noSuchElement) ∧
    (∀ a, 18 ≤ a → hostMove (.read (.frame a)) s = .refused .noSuchElement)

/-- R202: TX is FENC and, only if it ended `Ok`, PENC. That it is two steps is the model's: the host's moves
are a list (log 1), and its read of `STATUS` and conditional `CMD` write are one move (log 13). -/
def Obligations.TransmitSequence : Prop :=
  ∀ s : State,
    (s.FencLegal → ∃ m t u v,
      step (s.withPending tx) = .next m ∧ step m = .next t ∧
      exec .fenc (s.withPending []) = .next u ∧ exec .penc u = .next v ∧
      t = v ∧ t.status = 0#8 ∧ t.frame = u.frame ∧ t.slen = 583 ∧ t.st = s.st) ∧
    (¬s.FencLegal → ∃ m t,
      step (s.withPending tx) = .next m ∧ step m = .next t ∧ t.status = 12#8 ∧
      t.slen = s.slen ∧ t.st = s.st ∧ ∀ a, t.sample a = s.sample a)

/-- R203: RX is PDEC and, only if it ended `Ok`, FDEC. That it is two steps is the model's (log 1, 13). -/
def Obligations.ReceiveSequence : Prop :=
  ∀ s : State, ∃ m t u v,
    step (s.withPending rx) = .next m ∧ step m = .next t ∧
    exec .pdec (s.withPending []) = .next u ∧ exec .fdec u = .next v ∧
    (u.status = 0#8 → v.status = 0#8 → t = v ∧ t.frame = u.frame) ∧
    (u.status ≠ 0#8 → t.st = s.st ∧ t.status = u.status) ∧
    (u.status = 0#8 → v.status ≠ 0#8 →
      t.frame = u.frame ∧ t.st = s.st ∧ t.status = v.status ∧ t.status ≠ 7#8)

/-- R2, R143, R171: TX then RX of the same train gives back the registers of a valid state. That it is four
steps is the model's (log 1, 13). -/
def Obligations.TransmitThenReceive : Prop :=
  ∀ s : State, s.FencLegal → s.st.Valid → 1 ≤ s.tol.toNat → s.tol.toNat ≤ Spec.gap s.cfg →
    ∃ s₁ s₂ s₃ t,
      step (s.withPending (tx ++ rx)) = .next s₁ ∧ step s₁ = .next s₂ ∧ step s₂ = .next s₃ ∧
      step s₃ = .next t ∧ t.status = 0#8 ∧
      t.slen = 583 ∧ t.st.lastObservedClock.valid = true ∧
      t.st = { s.st with timerProgram := .none, lastObservedClock := t.st.lastObservedClock }

/-- R69, R204: a step makes the next move of the host's list, on the state without it, whatever the move is
(the list is the model's, log 1): a write of `CMD` issues the word, and the conditional one issues it when
`STATUS.ERR` is 0 and does nothing when it is not (log 13). -/
def Obligations.StepMakesNextMove : Prop :=
  ∀ (s : State) (m : HostMove) (rest : List HostMove), s.host.pending = m :: rest →
    let s' := { s with host := { s.host with pending := rest } }
    step s = hostMove m s' ∧
    (∀ w, m = .command w → step s = issue w s') ∧
    (∀ w, m = .commandIfOk w →
      (s.status = 0#8 → step s = issue w s') ∧ (s.status ≠ 0#8 → step s = .next s'))
end

