-- ==== Sys2Proof/Laws/State.lean ====
section
/-!
SUPPORT. One lemma per field per update of State, so that no proof unfolds a record update.
-/

namespace Sys2Proof.Machine

variable (s : State)

/-! ### setSamples -/

@[simp] theorem State.setSamples_cfg (m : List SampleCell) : (s.setSamples m).cfg = s.cfg := rfl
@[simp] theorem State.setSamples_samples (m : List SampleCell) : (s.setSamples m).samples = m := rfl
@[simp] theorem State.setSamples_sampleDraw (m : List SampleCell) : (s.setSamples m).sampleDraw = s.sampleDraw := rfl
@[simp] theorem State.setSamples_clockDraw (m : List SampleCell) : (s.setSamples m).clockDraw = s.clockDraw := rfl
@[simp] theorem State.setSamples_slen (m : List SampleCell) : (s.setSamples m).slen = s.slen := rfl
@[simp] theorem State.setSamples_frame (m : List SampleCell) : (s.setSamples m).frame = s.frame := rfl
@[simp] theorem State.setSamples_st (m : List SampleCell) : (s.setSamples m).st = s.st := rfl
@[simp] theorem State.setSamples_tol (m : List SampleCell) : (s.setSamples m).tol = s.tol := rfl
@[simp] theorem State.setSamples_status (m : List SampleCell) : (s.setSamples m).status = s.status := rfl
@[simp] theorem State.setSamples_draws (m : List SampleCell) : (s.setSamples m).draws = s.draws := rfl
@[simp] theorem State.setSamples_host (m : List SampleCell) : (s.setSamples m).host = s.host := rfl

/-! ### setSlen -/

@[simp] theorem State.setSlen_cfg (n : Nat) : (s.setSlen n).cfg = s.cfg := rfl
@[simp] theorem State.setSlen_samples (n : Nat) : (s.setSlen n).samples = s.samples := rfl
@[simp] theorem State.setSlen_sampleDraw (n : Nat) : (s.setSlen n).sampleDraw = s.sampleDraw := rfl
@[simp] theorem State.setSlen_clockDraw (n : Nat) : (s.setSlen n).clockDraw = s.clockDraw := rfl
@[simp] theorem State.setSlen_slen (n : Nat) : (s.setSlen n).slen = n := rfl
@[simp] theorem State.setSlen_frame (n : Nat) : (s.setSlen n).frame = s.frame := rfl
@[simp] theorem State.setSlen_st (n : Nat) : (s.setSlen n).st = s.st := rfl
@[simp] theorem State.setSlen_tol (n : Nat) : (s.setSlen n).tol = s.tol := rfl
@[simp] theorem State.setSlen_status (n : Nat) : (s.setSlen n).status = s.status := rfl
@[simp] theorem State.setSlen_draws (n : Nat) : (s.setSlen n).draws = s.draws := rfl
@[simp] theorem State.setSlen_host (n : Nat) : (s.setSlen n).host = s.host := rfl

/-! ### setFrame -/

@[simp] theorem State.setFrame_cfg (f : Frame) : (s.setFrame f).cfg = s.cfg := rfl
@[simp] theorem State.setFrame_samples (f : Frame) : (s.setFrame f).samples = s.samples := rfl
@[simp] theorem State.setFrame_sampleDraw (f : Frame) : (s.setFrame f).sampleDraw = s.sampleDraw := rfl
@[simp] theorem State.setFrame_clockDraw (f : Frame) : (s.setFrame f).clockDraw = s.clockDraw := rfl
@[simp] theorem State.setFrame_slen (f : Frame) : (s.setFrame f).slen = s.slen := rfl
@[simp] theorem State.setFrame_frame (f : Frame) : (s.setFrame f).frame = f := rfl
@[simp] theorem State.setFrame_st (f : Frame) : (s.setFrame f).st = s.st := rfl
@[simp] theorem State.setFrame_tol (f : Frame) : (s.setFrame f).tol = s.tol := rfl
@[simp] theorem State.setFrame_status (f : Frame) : (s.setFrame f).status = s.status := rfl
@[simp] theorem State.setFrame_draws (f : Frame) : (s.setFrame f).draws = s.draws := rfl
@[simp] theorem State.setFrame_host (f : Frame) : (s.setFrame f).host = s.host := rfl

/-! ### setSt -/

@[simp] theorem State.setSt_cfg (st : OperatingState) : (s.setSt st).cfg = s.cfg := rfl
@[simp] theorem State.setSt_samples (st : OperatingState) : (s.setSt st).samples = s.samples := rfl
@[simp] theorem State.setSt_sampleDraw (st : OperatingState) : (s.setSt st).sampleDraw = s.sampleDraw := rfl
@[simp] theorem State.setSt_clockDraw (st : OperatingState) : (s.setSt st).clockDraw = s.clockDraw := rfl
@[simp] theorem State.setSt_slen (st : OperatingState) : (s.setSt st).slen = s.slen := rfl
@[simp] theorem State.setSt_frame (st : OperatingState) : (s.setSt st).frame = s.frame := rfl
@[simp] theorem State.setSt_st (st : OperatingState) : (s.setSt st).st = st := rfl
@[simp] theorem State.setSt_tol (st : OperatingState) : (s.setSt st).tol = s.tol := rfl
@[simp] theorem State.setSt_status (st : OperatingState) : (s.setSt st).status = s.status := rfl
@[simp] theorem State.setSt_draws (st : OperatingState) : (s.setSt st).draws = s.draws := rfl
@[simp] theorem State.setSt_host (st : OperatingState) : (s.setSt st).host = s.host := rfl

/-! ### setTol -/

@[simp] theorem State.setTol_cfg (v : BitVec 16) : (s.setTol v).cfg = s.cfg := rfl
@[simp] theorem State.setTol_samples (v : BitVec 16) : (s.setTol v).samples = s.samples := rfl
@[simp] theorem State.setTol_sampleDraw (v : BitVec 16) : (s.setTol v).sampleDraw = s.sampleDraw := rfl
@[simp] theorem State.setTol_clockDraw (v : BitVec 16) : (s.setTol v).clockDraw = s.clockDraw := rfl
@[simp] theorem State.setTol_slen (v : BitVec 16) : (s.setTol v).slen = s.slen := rfl
@[simp] theorem State.setTol_frame (v : BitVec 16) : (s.setTol v).frame = s.frame := rfl
@[simp] theorem State.setTol_st (v : BitVec 16) : (s.setTol v).st = s.st := rfl
@[simp] theorem State.setTol_tol (v : BitVec 16) : (s.setTol v).tol = v := rfl
@[simp] theorem State.setTol_status (v : BitVec 16) : (s.setTol v).status = s.status := rfl
@[simp] theorem State.setTol_draws (v : BitVec 16) : (s.setTol v).draws = s.draws := rfl
@[simp] theorem State.setTol_host (v : BitVec 16) : (s.setTol v).host = s.host := rfl

/-! ### setStatus -/

@[simp] theorem State.setStatus_cfg (v : Byte) : (s.setStatus v).cfg = s.cfg := rfl
@[simp] theorem State.setStatus_samples (v : Byte) : (s.setStatus v).samples = s.samples := rfl
@[simp] theorem State.setStatus_sampleDraw (v : Byte) : (s.setStatus v).sampleDraw = s.sampleDraw := rfl
@[simp] theorem State.setStatus_clockDraw (v : Byte) : (s.setStatus v).clockDraw = s.clockDraw := rfl
@[simp] theorem State.setStatus_slen (v : Byte) : (s.setStatus v).slen = s.slen := rfl
@[simp] theorem State.setStatus_frame (v : Byte) : (s.setStatus v).frame = s.frame := rfl
@[simp] theorem State.setStatus_st (v : Byte) : (s.setStatus v).st = s.st := rfl
@[simp] theorem State.setStatus_tol (v : Byte) : (s.setStatus v).tol = s.tol := rfl
@[simp] theorem State.setStatus_status (v : Byte) : (s.setStatus v).status = v := rfl
@[simp] theorem State.setStatus_draws (v : Byte) : (s.setStatus v).draws = s.draws := rfl
@[simp] theorem State.setStatus_host (v : Byte) : (s.setStatus v).host = s.host := rfl

/-! ### setHost -/

@[simp] theorem State.setHost_cfg (h : HostSide) : (s.setHost h).cfg = s.cfg := rfl
@[simp] theorem State.setHost_samples (h : HostSide) : (s.setHost h).samples = s.samples := rfl
@[simp] theorem State.setHost_sampleDraw (h : HostSide) : (s.setHost h).sampleDraw = s.sampleDraw := rfl
@[simp] theorem State.setHost_clockDraw (h : HostSide) : (s.setHost h).clockDraw = s.clockDraw := rfl
@[simp] theorem State.setHost_slen (h : HostSide) : (s.setHost h).slen = s.slen := rfl
@[simp] theorem State.setHost_frame (h : HostSide) : (s.setHost h).frame = s.frame := rfl
@[simp] theorem State.setHost_st (h : HostSide) : (s.setHost h).st = s.st := rfl
@[simp] theorem State.setHost_tol (h : HostSide) : (s.setHost h).tol = s.tol := rfl
@[simp] theorem State.setHost_status (h : HostSide) : (s.setHost h).status = s.status := rfl
@[simp] theorem State.setHost_draws (h : HostSide) : (s.setHost h).draws = s.draws := rfl
@[simp] theorem State.setHost_host (h : HostSide) : (s.setHost h).host = h := rfl

/-! ### useDraw -/

@[simp] theorem State.useDraw_cfg : (s.useDraw).cfg = s.cfg := rfl
@[simp] theorem State.useDraw_samples : (s.useDraw).samples = s.samples := rfl
@[simp] theorem State.useDraw_sampleDraw : (s.useDraw).sampleDraw = s.sampleDraw := rfl
@[simp] theorem State.useDraw_clockDraw : (s.useDraw).clockDraw = s.clockDraw := rfl
@[simp] theorem State.useDraw_slen : (s.useDraw).slen = s.slen := rfl
@[simp] theorem State.useDraw_frame : (s.useDraw).frame = s.frame := rfl
@[simp] theorem State.useDraw_st : (s.useDraw).st = s.st := rfl
@[simp] theorem State.useDraw_tol : (s.useDraw).tol = s.tol := rfl
@[simp] theorem State.useDraw_status : (s.useDraw).status = s.status := rfl
@[simp] theorem State.useDraw_draws : (s.useDraw).draws = s.draws + 1 := rfl
@[simp] theorem State.useDraw_host : (s.useDraw).host = s.host := rfl

/-! ### redrawClock -/

@[simp] theorem State.redrawClock_cfg : (s.redrawClock).cfg = s.cfg := rfl
@[simp] theorem State.redrawClock_samples : (s.redrawClock).samples = s.samples := rfl
@[simp] theorem State.redrawClock_sampleDraw : (s.redrawClock).sampleDraw = s.sampleDraw := rfl
@[simp] theorem State.redrawClock_clockDraw : (s.redrawClock).clockDraw = s.draws := rfl
@[simp] theorem State.redrawClock_slen : (s.redrawClock).slen = s.slen := rfl
@[simp] theorem State.redrawClock_frame : (s.redrawClock).frame = s.frame := rfl
@[simp] theorem State.redrawClock_st : (s.redrawClock).st = s.st := rfl
@[simp] theorem State.redrawClock_tol : (s.redrawClock).tol = s.tol := rfl
@[simp] theorem State.redrawClock_status : (s.redrawClock).status = s.status := rfl
@[simp] theorem State.redrawClock_draws : (s.redrawClock).draws = s.draws + 1 := rfl
@[simp] theorem State.redrawClock_host : (s.redrawClock).host = s.host := rfl

/-! ### complete -/

@[simp] theorem State.complete_cfg : (s.complete).cfg = s.cfg := rfl
@[simp] theorem State.complete_samples : (s.complete).samples = s.samples := rfl
@[simp] theorem State.complete_sampleDraw : (s.complete).sampleDraw = s.sampleDraw := rfl
@[simp] theorem State.complete_clockDraw : (s.complete).clockDraw = s.clockDraw := rfl
@[simp] theorem State.complete_slen : (s.complete).slen = s.slen := rfl
@[simp] theorem State.complete_frame : (s.complete).frame = s.frame := rfl
@[simp] theorem State.complete_st : (s.complete).st = s.st := rfl
@[simp] theorem State.complete_tol : (s.complete).tol = s.tol := rfl
@[simp] theorem State.complete_status : (s.complete).status = okCode := rfl
@[simp] theorem State.complete_draws : (s.complete).draws = s.draws := rfl
@[simp] theorem State.complete_host : (s.complete).host = s.host := rfl

/-! ### raise without a destination, and with `F` as destination -/

@[simp] theorem State.raise_nothing_cfg (k : ErrKind) : (s.raise k .nothing).cfg = s.cfg := rfl
@[simp] theorem State.raise_nothing_samples (k : ErrKind) : (s.raise k .nothing).samples = s.samples := rfl
@[simp] theorem State.raise_nothing_sampleDraw (k : ErrKind) : (s.raise k .nothing).sampleDraw = s.sampleDraw := rfl
@[simp] theorem State.raise_nothing_clockDraw (k : ErrKind) : (s.raise k .nothing).clockDraw = s.clockDraw := rfl
@[simp] theorem State.raise_nothing_slen (k : ErrKind) : (s.raise k .nothing).slen = s.slen := rfl
@[simp] theorem State.raise_nothing_frame (k : ErrKind) : (s.raise k .nothing).frame = s.frame := rfl
@[simp] theorem State.raise_nothing_st (k : ErrKind) : (s.raise k .nothing).st = s.st := rfl
@[simp] theorem State.raise_nothing_tol (k : ErrKind) : (s.raise k .nothing).tol = s.tol := rfl
@[simp] theorem State.raise_nothing_status (k : ErrKind) : (s.raise k .nothing).status = k.code := rfl
@[simp] theorem State.raise_nothing_draws (k : ErrKind) : (s.raise k .nothing).draws = s.draws := rfl
@[simp] theorem State.raise_nothing_host (k : ErrKind) : (s.raise k .nothing).host = s.host := rfl
@[simp] theorem State.raise_frame_cfg (k : ErrKind) : (s.raise k .frame).cfg = s.cfg := rfl
@[simp] theorem State.raise_frame_samples (k : ErrKind) : (s.raise k .frame).samples = s.samples := rfl
@[simp] theorem State.raise_frame_sampleDraw (k : ErrKind) : (s.raise k .frame).sampleDraw = s.sampleDraw := rfl
@[simp] theorem State.raise_frame_clockDraw (k : ErrKind) : (s.raise k .frame).clockDraw = s.clockDraw := rfl
@[simp] theorem State.raise_frame_slen (k : ErrKind) : (s.raise k .frame).slen = s.slen := rfl
@[simp] theorem State.raise_frame_frame (k : ErrKind) : (s.raise k .frame).frame = Config.freeFrame s.draws := rfl
@[simp] theorem State.raise_frame_st (k : ErrKind) : (s.raise k .frame).st = s.st := rfl
@[simp] theorem State.raise_frame_tol (k : ErrKind) : (s.raise k .frame).tol = s.tol := rfl
@[simp] theorem State.raise_frame_status (k : ErrKind) : (s.raise k .frame).status = k.code := rfl
@[simp] theorem State.raise_frame_draws (k : ErrKind) : (s.raise k .frame).draws = s.draws + 1 := rfl
@[simp] theorem State.raise_frame_host (k : ErrKind) : (s.raise k .frame).host = s.host := rfl

/-! ### withPending -/

@[simp] theorem State.withPending_cfg (ms : List HostMove) : (s.withPending ms).cfg = s.cfg := rfl
@[simp] theorem State.withPending_samples (ms : List HostMove) : (s.withPending ms).samples = s.samples := rfl
@[simp] theorem State.withPending_sampleDraw (ms : List HostMove) : (s.withPending ms).sampleDraw = s.sampleDraw := rfl
@[simp] theorem State.withPending_clockDraw (ms : List HostMove) : (s.withPending ms).clockDraw = s.clockDraw := rfl
@[simp] theorem State.withPending_slen (ms : List HostMove) : (s.withPending ms).slen = s.slen := rfl
@[simp] theorem State.withPending_frame (ms : List HostMove) : (s.withPending ms).frame = s.frame := rfl
@[simp] theorem State.withPending_st (ms : List HostMove) : (s.withPending ms).st = s.st := rfl
@[simp] theorem State.withPending_tol (ms : List HostMove) : (s.withPending ms).tol = s.tol := rfl
@[simp] theorem State.withPending_status (ms : List HostMove) : (s.withPending ms).status = s.status := rfl
@[simp] theorem State.withPending_draws (ms : List HostMove) : (s.withPending ms).draws = s.draws := rfl
@[simp] theorem State.withPending_host (ms : List HostMove) : (s.withPending ms).host = { s.host with pending := ms } := rfl

/-! ### The sample buffer is read through `samples` and `sampleDraw` only -/

theorem State.sample_congr {s t : State} (h : s.samples = t.samples)
    (hd : s.sampleDraw = t.sampleDraw) (i : Nat) : s.sample i = t.sample i := by
  simp only [State.sample, h, hd]

@[simp] theorem State.complete_sample (i : Nat) : s.complete.sample i = s.sample i := by apply State.sample_congr <;> rfl
@[simp] theorem State.setFrame_sample (f : Frame) (i : Nat) : (s.setFrame f).sample i = s.sample i := by apply State.sample_congr <;> rfl
@[simp] theorem State.setSlen_sample (n i : Nat) : (s.setSlen n).sample i = s.sample i := by apply State.sample_congr <;> rfl
@[simp] theorem State.setSt_sample (st : OperatingState) (i : Nat) :
    (s.setSt st).sample i = s.sample i := by apply State.sample_congr <;> rfl
@[simp] theorem State.setStatus_sample (v : Byte) (i : Nat) :
    (s.setStatus v).sample i = s.sample i := by apply State.sample_congr <;> rfl
@[simp] theorem State.setHost_sample (h : HostSide) (i : Nat) :
    (s.setHost h).sample i = s.sample i := by apply State.sample_congr <;> rfl

end Sys2Proof.Machine
end

