-- ==== Sys2Proof/Laws/Flags.lean ====
section
/-!
SUPPORT. Laws of the outcomes (rules R12, R211): `require`, `orRaise`, the sequencing of checks, and the
codes in `STATUS.ERR`.
-/

namespace Sys2Proof.Machine

@[simp] theorem require_true (k : ErrKind) : require true k = .ok () := rfl
@[simp] theorem require_false (k : ErrKind) : require false k = .error k := rfl
@[simp] theorem orRaise_some {α : Type} (a : α) (k : ErrKind) : orRaise (some a) k = .ok a := rfl
@[simp] theorem orRaise_none {α : Type} (k : ErrKind) :
    orRaise (none : Option α) k = .error k := rfl

@[simp] theorem ok_bind {α β : Type} (a : α) (g : α → Except ErrKind β) :
    (Except.ok a >>= g) = g a := rfl
@[simp] theorem error_bind {α β : Type} (k : ErrKind) (g : α → Except ErrKind β) :
    ((Except.error k : Except ErrKind α) >>= g) = .error k := rfl

theorem require_eq_ok {b : Bool} {k : ErrKind} {u : Unit} :
    require b k = .ok u ↔ b = true := by cases b <;> simp

theorem require_eq_error {b : Bool} {k k' : ErrKind} :
    require b k = .error k' ↔ b = false ∧ k = k' := by cases b <;> simp

theorem orRaise_eq_ok {α : Type} {o : Option α} {k : ErrKind} {a : α} :
    orRaise o k = .ok a ↔ o = some a := by cases o <;> simp

theorem orRaise_eq_error {α : Type} {o : Option α} {k k' : ErrKind} :
    orRaise o k = .error k' ↔ o = none ∧ k = k' := by cases o <;> simp

/-- A sequence of two checks passes exactly when the first passes and the second passes on its value. -/
theorem bind_eq_ok {α β : Type} {x : Except ErrKind α} {g : α → Except ErrKind β} {b : β} :
    (x >>= g) = .ok b ↔ ∃ a, x = .ok a ∧ g a = .ok b := by
  cases x <;> simp

/-- A sequence of two checks reports the first failure. -/
theorem bind_eq_error {α β : Type} {x : Except ErrKind α} {g : α → Except ErrKind β} {k : ErrKind} :
    (x >>= g) = .error k ↔ x = .error k ∨ ∃ a, x = .ok a ∧ g a = .error k := by
  cases x <;> simp

theorem require_bind_ite {α : Type} (b : Bool) (k : ErrKind) (x : Except ErrKind α) :
    (require b k >>= fun _ => x) = if b = true then x else .error k := by cases b <;> simp

/-- No error kind has the code of `Ok` (R211). -/
theorem code_ne_okCode (k : ErrKind) : k.code ≠ okCode := by cases k <;> decide

/-- Different kinds have different codes (R211). -/
theorem code_injective : Function.Injective ErrKind.code := by
  intro j k h
  cases j <;> cases k <;> first | rfl | exact absurd h (by decide)

/-- The codes are 1 to 13 (R211). -/
theorem code_le (k : ErrKind) : k.code ≤ 13#8 := by cases k <;> decide

end Sys2Proof.Machine
end

