-- ==== Sys2Proof/Laws/Frame.lean ====
section
/-!
SUPPORT. Laws of the frame buffer and of the checksum (rules R23, R100, R120, R121).
-/

namespace Sys2Proof.Machine

/-! ### Bytes of a frame -/

theorem frameByte_eq (f : Frame) (i : Nat) (h : i < 18) : frameByte f i = f[i] := by
  simp [frameByte, List.getD_eq_getElem?_getD, h]

theorem frame_ext {f g : Frame} (h : ∀ i < 18, frameByte f i = frameByte g i) : f = g := by
  refine Vector.ext fun i hi => ?_
  rw [← frameByte_eq f i hi, ← frameByte_eq g i hi]
  exact h i hi

theorem frameByte_set17 (f : Frame) (b : Byte) (i : Nat) :
    frameByte (f.set 17 b) i = if i = 17 then b else frameByte f i := by
  by_cases h : i < 18
  · rw [frameByte_eq _ _ h, frameByte_eq _ _ h, Vector.getElem_set]
    by_cases h' : i = 17
    · subst h'; simp
    · rw [if_neg (by omega), if_neg h']
  · rw [if_neg (by omega)]
    simp [frameByte, List.getD_eq_getElem?_getD, h]

theorem frameByte_ofFn (g : Nat → Byte) (i : Nat) (h : i < 18) :
    frameByte (Vector.ofFn fun j : Fin 18 => g j.val) i = g i := by
  rw [frameByte_eq _ _ h]; simp

theorem frameByte_freeFrame (d i : Nat) (h : i < 18) :
    frameByte (Config.freeFrame d) i = Config.freeByte d i := by
  unfold Config.freeFrame
  exact frameByte_ofFn _ _ h

/-! ### The checksum -/

theorem sum_map_range (g : Nat → Nat) (n : Nat) :
    ((List.range n).map g).sum = ∑ i ∈ Finset.range n, g i := by
  induction n with
  | zero => rfl
  | succ n ih => simp [List.range_succ, Finset.sum_range_succ, ih]

/-- The sum of bytes 0 to 16 in unbounded naturals (R120, R145). -/
theorem bytes_sum_eq (f : Frame) :
    ((f.toList.take 17).map BitVec.toNat).sum = ∑ i ∈ Finset.range 17, (frameByte f i).toNat := by
  have hlen : f.toList.length = 18 := by simp
  have h : (f.toList.take 17).map BitVec.toNat =
      (List.range 17).map fun i => (frameByte f i).toNat := by
    refine List.ext_getElem (by simp) fun i h1 h2 => ?_
    have hi : i < 17 := by simpa using h2
    simp [frameByte_eq f i (by omega)]
  rw [h, sum_map_range]

theorem cksum_eq (f : Frame) :
    cksum f = BitVec.ofNat 8 (∑ i ∈ Finset.range 17, (frameByte f i).toNat) := by
  rw [cksum, bytes_sum_eq]

/-- Frames that agree on bytes 0 to 16 have the same checksum (R120). -/
theorem cksum_congr {f g : Frame} (h : ∀ i < 17, frameByte f i = frameByte g i) :
    cksum f = cksum g := by
  have hs : ∑ i ∈ Finset.range 17, (frameByte f i).toNat =
      ∑ i ∈ Finset.range 17, (frameByte g i).toNat :=
    Finset.sum_congr rfl fun i hi => by rw [h i (Finset.mem_range.1 hi)]
  rw [cksum_eq, cksum_eq, hs]

@[simp] theorem cksum_set17 (f : Frame) (b : Byte) : cksum (f.set 17 b) = cksum f :=
  cksum_congr fun i hi => by rw [frameByte_set17, if_neg (by omega)]

theorem checksumOk_iff (f : Frame) : checksumOk f = true ↔ frameByte f 17 = cksum f := by
  rw [frameByte_eq f 17 (by omega)]
  simp [checksumOk]

theorem checksumOk_eq_false_iff (f : Frame) : checksumOk f = false ↔ frameByte f 17 ≠ cksum f := by
  rw [← Bool.not_eq_true, checksumOk_iff]

theorem frameByte_withChecksum (f : Frame) (i : Nat) :
    frameByte (withChecksum f) i = if i = 17 then cksum f else frameByte f i :=
  frameByte_set17 f _ i

@[simp] theorem cksum_withChecksum (f : Frame) : cksum (withChecksum f) = cksum f :=
  cksum_set17 f _

/-- CKGEN's frame carries its checksum (R121). -/
@[simp] theorem checksumOk_withChecksum (f : Frame) : checksumOk (withChecksum f) = true := by
  rw [checksumOk_iff, frameByte_withChecksum, if_pos rfl, cksum_withChecksum]

end Sys2Proof.Machine
end

