-- ==== Sys2Proof/Laws/FrameCodec.lean ====
section
/-!
SUPPORT. Laws of the frame codec (rules R123 to R143): FENC's preconditions in naturals, the bytes of an
encoded frame, each check of FDEC on the byte FENC writes, and what FDEC's checks say when they pass.
-/

namespace Sys2Proof.Machine

/-! ### FENC's preconditions -/

theorem clockInRange_iff (cs : ClockSetting) (hour : BitVec 5) (minute : BitVec 6) :
    clockInRange cs hour minute = true ↔ ClockLegal cs hour minute := by
  have hk : ClockLegal cs hour minute ↔ (cs.auto = false → cs.value.toNat ≤ 143) ∧
      (cs.auto = true → hour.toNat ≤ 23 ∧ minute.toNat ≤ 59) :=
    ⟨fun h => ⟨h.explicit, h.wall⟩, fun h => ⟨h.1, h.2⟩⟩
  rw [hk]
  cases h : cs.auto <;> simp [clockInRange, h, BitVec.le_def]

theorem fencReady_iff (st : OperatingState) (hour : BitVec 5) (minute : BitVec 6) :
    fencReady st hour minute = true ↔ st.InRange ∧ ClockLegal st.clockSetting hour minute := by
  have hk : st.InRange ↔ (16 ≤ st.temperature.toNat ∧ st.temperature.toNat ≤ 31) ∧
      st.fanSpeed.toNat ≤ 3 ∧ st.timerEndTime.toNat ≤ 143 ∧ st.timerStartTime.toNat ≤ 143 :=
    ⟨fun h => ⟨h.temperature, h.fanSpeed, h.timerEndTime, h.timerStartTime⟩,
      fun h => ⟨h.1, h.2.1, h.2.2.1, h.2.2.2⟩⟩
  rw [← clockInRange_iff, hk]
  simp [fencReady, BitVec.le_def]
  tauto

theorem State.fencLegal_iff (s : State) :
    s.FencLegal ↔ fencReady s.st s.host.wcHour s.host.wcMin = true := by
  rw [fencReady_iff]
  exact ⟨fun h => ⟨h.inRange, h.clock⟩, fun h => ⟨h.1, h.2⟩⟩

/-! ### The bytes of an encoded frame -/

theorem frameByte_encodeFrame (st : OperatingState) (hour : BitVec 5) (minute : BitVec 6) (i : Nat)
    (h : i < 17) :
    frameByte (encodeFrame st hour minute) i = frameByte (encodeBody st hour minute) i := by
  rw [encodeFrame, frameByte_withChecksum, if_neg (by omega)]

@[simp] theorem checksumOk_encodeFrame (st : OperatingState) (hour : BitVec 5) (minute : BitVec 6) :
    checksumOk (encodeFrame st hour minute) = true :=
  checksumOk_withChecksum _

/-- A legal clock gives a byte 10 of at most 143 (R91, R145). -/
theorem clockByte_le {cs : ClockSetting} {hour : BitVec 5} {minute : BitVec 6}
    (h : ClockLegal cs hour minute) : (clockByte cs hour minute).toNat ≤ 143 := by
  cases ha : cs.auto with
  | true =>
    have := h.wall ha
    have hle : hour.toNat * 6 + minute.toNat / 10 ≤ 143 := by omega
    simp only [clockByte, ha, BitVec.toNat_ofNat]
    exact (Nat.mod_le _ _).trans hle
  | false =>
    simpa [clockByte, ha] using h.explicit ha

/-- Byte 10 as a number (R124): nothing wraps. -/
theorem clockByte_toNat {cs : ClockSetting} {hour : BitVec 5} {minute : BitVec 6}
    (h : ClockLegal cs hour minute) :
    (clockByte cs hour minute).toNat =
      if cs.auto = true then hour.toNat * 6 + minute.toNat / 10 else cs.value.toNat := by
  cases ha : cs.auto with
  | true =>
    have := h.wall ha
    have hle : hour.toNat * 6 + minute.toNat / 10 ≤ 143 := by omega
    simp only [clockByte, ha, BitVec.toNat_ofNat, if_true]
    exact Nat.mod_eq_of_lt (by omega)
  | false => simp [clockByte, ha]

/-! ### FDEC's checks on the bytes FENC writes -/

@[simp] theorem checkPower_powerCode (b : Bool) : checkPower (powerCode b) = .ok b := by
  cases b <;> decide

@[simp] theorem checkMode_encoded (m : Mode) (isee : Bool) :
    checkMode (modeCode m ||| flagCode 0x40#8 isee) = .ok (isee, m) := by
  cases m <;> cases isee <;> decide

theorem checkTemperature_encoded (t : Byte) (h : 16 ≤ t.toNat ∧ t.toNat ≤ 31) :
    checkTemperature (t - 16#8) = .ok t := by
  obtain ⟨n, rfl⟩ : ∃ n : Fin 16, t = BitVec.ofNat 8 (n.val + 16) :=
    ⟨⟨t.toNat - 16, by omega⟩, BitVec.eq_of_toNat_eq (by simp; omega)⟩
  revert n; decide

@[simp] theorem checkWideVane_encoded (m : Mode) (w : WideVane) :
    checkWideVane m (mode2Code m ||| wideVaneCode w) = .ok w := by
  cases m <;> cases w <;> decide

theorem checkVane_encoded (fan : Byte) (h : fan.toNat ≤ 3) (v : Vane) :
    checkVane (fan ||| vaneCode v) = .ok (fan, v) := by
  obtain ⟨n, rfl⟩ : ∃ n : Fin 4, fan = BitVec.ofNat 8 n.val :=
    ⟨⟨fan.toNat, by omega⟩, BitVec.eq_of_toNat_eq (by simp)⟩
  revert n; cases v <;> decide

theorem checkTime_ok {b : Byte} (h : b.toNat ≤ 143) : checkTime b = .ok b := by
  have : decide (b ≤ 143#8) = true := by simpa [BitVec.le_def] using h
  simp [checkTime, this]

@[simp] theorem checkTimerProgram_zero (c : Config) : checkTimerProgram c 0x00#8 = .ok .none := by
  simp [checkTimerProgram, lookup, timerProgramKeys, timerProgramCode]

theorem checkEcono_encoded (m : Mode) (v : Vane) (e c : Bool)
    (h : e = true → m = .cool ∧ v = .auto) :
    checkEcono m v (flagCode 0x20#8 e ||| flagCode 0x04#8 c) = .ok (e, c) := by
  cases e with
  | false => cases c <;> cases m <;> cases v <;> decide
  | true =>
    obtain ⟨rfl, rfl⟩ := h rfl
    cases c <;> decide

theorem checkLong_encoded (v : Vane) (l p : Bool) (h : l = true → v = .auto) :
    checkLong v (flagCode 0x10#8 l ||| flagCode 0x04#8 p) = .ok (l, p) := by
  cases l with
  | false => cases p <;> cases v <;> decide
  | true =>
    obtain rfl := h rfl
    cases p <;> decide

/-! ### What FDEC's checks say when they pass -/

theorem checkTemperature_range {b t : Byte} (h : checkTemperature b = .ok t) :
    16 ≤ t.toNat ∧ t.toNat ≤ 31 := by
  simp only [checkTemperature, bind_eq_ok, require_eq_ok] at h
  obtain ⟨_, h1, h2⟩ := h
  have : b + 16#8 = t := by injection h2
  subst this
  revert h1; revert b; decide

theorem checkVane_range {b fan : Byte} {v : Vane} (h : checkVane b = .ok (fan, v)) :
    fan.toNat ≤ 3 := by
  simp only [checkVane, bind_eq_ok, require_eq_ok] at h
  obtain ⟨_, h1, _, _, h2⟩ := h
  have : b &&& 0x07#8 = fan := by injection h2 with h2; exact congrArg Prod.fst h2
  rw [← this]
  simpa [BitVec.le_def] using h1

theorem checkTime_range {b t : Byte} (h : checkTime b = .ok t) : t = b ∧ t.toNat ≤ 143 := by
  simp only [checkTime, bind_eq_ok, require_eq_ok] at h
  obtain ⟨_, h1, h2⟩ := h
  have : b = t := by injection h2
  subst this
  exact ⟨rfl, by simpa [BitVec.le_def] using h1⟩

theorem checkEcono_consistent {m : Mode} {v : Vane} {b : Byte} {e c : Bool}
    (h : checkEcono m v b = .ok (e, c)) : e = true → m = .cool ∧ v = .auto := by
  simp only [checkEcono, bind_eq_ok, require_eq_ok] at h
  obtain ⟨_, _, _, h2, h3⟩ := h
  have : b.getLsbD 5 = e := by injection h3 with h3; exact congrArg Prod.fst h3
  intro he
  rw [this, he] at h2
  simpa using h2

theorem checkLong_consistent {v : Vane} {b : Byte} {l p : Bool}
    (h : checkLong v b = .ok (l, p)) : l = true → v = .auto := by
  simp only [checkLong, bind_eq_ok, require_eq_ok] at h
  obtain ⟨_, _, _, h2, h3⟩ := h
  have : b.getLsbD 4 = l := by injection h3 with h3; exact congrArg Prod.fst h3
  intro he
  rw [this, he] at h2
  simpa using h2

/-- What a successful FDEC has checked, one part per check of R129 to R140. -/
theorem decodeFrame_eq_ok {c : Config} {f : Frame} {d : Decoded} (h : decodeFrame c f = .ok d) :
    checksumOk f = true ∧ checkPreamble f = .ok () ∧ checkPower f[5] = .ok d.on ∧
    checkMode f[6] = .ok (d.isee, d.mode) ∧ checkTemperature f[7] = .ok d.temperature ∧
    checkWideVane d.mode f[8] = .ok d.wideVane ∧ checkVane f[9] = .ok (d.fanSpeed, d.vane) ∧
    checkTime f[10] = .ok d.clock ∧ checkTime f[11] = .ok d.tEnd ∧ checkTime f[12] = .ok d.tStart ∧
    checkTimerProgram c f[13] = .ok d.tProg ∧
    checkEcono d.mode d.vane f[14] = .ok (d.econo, d.clean) ∧
    checkLong d.vane f[15] = .ok (d.longm, d.plasma) ∧ checkByte16 f[16] = .ok () := by
  simp only [decodeFrame, bind_eq_ok, checkChecksum, require_eq_ok] at h
  obtain ⟨_, h1, _, h2, _, h3, _, h4, _, h5, _, h6, _, h7, _, h8, _, h9, _, h10, _, h11, _, h12, _,
    h13, _, h14, hd⟩ := h
  injection hd with hd
  subst hd
  exact ⟨h1, h2, h3, h4, h5, h6, h7, h8, h9, h10, h11, h12, h13, h14⟩

/-- The frame FENC writes for a legal state passes every check of FDEC, with these candidates. -/
theorem decodeFrame_encodeFrame (c : Config) {st : OperatingState} {hour : BitVec 5}
    {minute : BitVec 6} (hr : st.InRange) (hc : ClockLegal st.clockSetting hour minute) :
    decodeFrame c (encodeFrame st hour minute) = .ok
      { on := st.on, isee := st.isee, mode := st.mode, temperature := st.temperature,
        wideVane := st.wideVane, fanSpeed := st.fanSpeed,
        vane := if vaneForced st then .auto else st.vane,
        clock := clockByte st.clockSetting hour minute, tEnd := st.timerEndTime,
        tStart := st.timerStartTime, tProg := .none, econo := econoEmitted st,
        clean := st.cleanMode, longm := st.longMode, plasma := st.plasma } := by
  have hb : ∀ i, (h : i < 17) → (encodeFrame st hour minute)[i] = (encodeBody st hour minute)[i] := by
    intro i h
    rw [← frameByte_eq _ i (by omega), ← frameByte_eq _ i (by omega), frameByte_encodeFrame _ _ _ _ h]
  have hp : checkPreamble (encodeFrame st hour minute) = .ok () := rfl
  have he : econoEmitted st = true → st.mode = .cool ∧
      (if vaneForced st then Vane.auto else st.vane) = .auto := by
    intro h
    simp only [econoEmitted, Bool.and_eq_true, beq_iff_eq] at h
    simp [vaneForced, h]
  have hl : st.longMode = true → (if vaneForced st then Vane.auto else st.vane) = .auto := by
    intro h
    simp [vaneForced, h]
  simp only [decodeFrame, checkChecksum, checksumOk_encodeFrame, require_true, ok_bind, hp,
    hb 5 (by omega), hb 6 (by omega), hb 7 (by omega), hb 8 (by omega), hb 9 (by omega),
    hb 10 (by omega), hb 11 (by omega), hb 12 (by omega), hb 13 (by omega), hb 14 (by omega),
    hb 15 (by omega), hb 16 (by omega)]
  simp only [encodeBody, Vector.getElem_mk, List.getElem_toArray, List.getElem_cons_succ,
    List.getElem_cons_zero, checkPower_powerCode, checkMode_encoded, checkWideVane_encoded,
    checkTemperature_encoded _ hr.temperature, checkVane_encoded _ hr.fanSpeed,
    checkTime_ok (clockByte_le hc), checkTime_ok hr.timerEndTime, checkTime_ok hr.timerStartTime,
    checkTimerProgram_zero, checkEcono_encoded _ _ _ _ he, checkLong_encoded _ _ _ hl, ok_bind]
  rfl

end Sys2Proof.Machine
end

