-- ==== Sys2Proof/Laws/Ops.lean ====
section
/-!
SUPPORT. Laws of the sample buffer (rules R21, R160, R161): read after write, what a write leaves alone,
and that every operation keeps the canonical form (log 9); the window of PDEC.
-/

namespace Sys2Proof.Machine

/-! ### Finding a cell -/

@[simp] theorem findCell_nil (i : Nat) : findCell [] i = none := rfl

theorem findCell_cons (c : SampleCell) (m : List SampleCell) (i : Nat) :
    findCell (c :: m) i = if c.index = i then some c else findCell m i := by
  by_cases h : c.index = i
  · simp [findCell, h]
  · have : Nat.beq c.index i = false :=
      Bool.eq_false_iff.2 fun hb => h (Nat.eq_of_beq_eq_true hb)
    simp [findCell, h, this]

theorem findCell_append (m m' : List SampleCell) (i : Nat) :
    findCell (m ++ m') i = (findCell m i).or (findCell m' i) := by
  simp [findCell, List.find?_append]

theorem findCell_index {m : List SampleCell} {i : Nat} {c : SampleCell}
    (h : findCell m i = some c) : c.index = i := by
  have := List.find?_some h
  simpa using Nat.eq_of_beq_eq_true this

theorem findCell_eq_none {m : List SampleCell} {i : Nat} (h : ∀ c ∈ m, c.index ≠ i) :
    findCell m i = none := by
  induction m with
  | nil => rfl
  | cons d ds ih =>
    rw [findCell_cons, if_neg (h d (by simp))]
    exact ih fun c hc => h c (by simp [hc])

/-! ### A host write of one element -/

/-- What a write of one element does: that index reads the new cell, every other index reads as before. -/
theorem findCell_insertCell (c : SampleCell) (m : List SampleCell) (i : Nat) :
    findCell (insertCell c m) i = if c.index = i then some c else findCell m i := by
  induction m with
  | nil => simp [insertCell, findCell_cons]
  | cons d ds ih =>
    simp only [insertCell]
    split
    · simp [findCell_cons]
    · split
      · next h =>
        simp only [findCell_cons]
        split
        · rfl
        · next h' => rw [if_neg (by omega)]
      · simp only [findCell_cons, ih]
        split
        · next h1 h2 h3 => rw [if_neg (by omega)]
        · rfl

theorem mem_insertCell {c e : SampleCell} {m : List SampleCell} (h : e ∈ insertCell c m) :
    e = c ∨ e ∈ m := by
  induction m with
  | nil => simpa [insertCell] using h
  | cons d ds ih =>
    simp only [insertCell] at h
    split at h
    · simpa using h
    · split at h
      · rcases List.mem_cons.1 h with h | h <;> simp [h]
      · rcases List.mem_cons.1 h with h | h
        · simp [h]
        · rcases ih h with h | h <;> simp [h]

theorem insertCell_wf {cap : Nat} {c : SampleCell} {m : List SampleCell} (hm : SamplesWf cap m)
    (hc : c.index < cap) : SamplesWf cap (insertCell c m) := by
  refine ⟨?_, fun e he => ?_⟩
  · have hp := hm.1
    clear hm
    induction m with
    | nil => simp [insertCell]
    | cons d ds ih =>
      obtain ⟨hd, hds⟩ := List.pairwise_cons.1 hp
      simp only [insertCell]
      split
      · next h =>
        refine List.pairwise_cons.2 ⟨fun e he => ?_, hp⟩
        rcases List.mem_cons.1 he with he | he
        · simpa [he] using h
        · have := hd e he; omega
      · split
        · next h =>
          exact List.pairwise_cons.2 ⟨fun e he => by have := hd e he; omega, hds⟩
        · refine List.pairwise_cons.2 ⟨fun e he => ?_, ih hds⟩
          rcases mem_insertCell he with he | he
          · subst he; omega
          · exact hd e he
  · rcases mem_insertCell he with he | he
    · simpa [he] using hc
    · exact hm.2 e he

/-! ### PENC's write of a train -/

theorem findCell_cellsFrom (start : Nat) (vs : List Sample) (i : Nat) :
    findCell (cellsFrom start vs) i =
      if h : start ≤ i ∧ i - start < vs.length then some ⟨i, vs[i - start], false⟩ else none := by
  induction vs generalizing start with
  | nil => simp [cellsFrom]
  | cons v vs ih =>
    rw [cellsFrom, findCell_cons, ih]
    by_cases h : start = i
    · subst h; simp
    · rw [if_neg (by simpa using h)]
      by_cases h' : start + 1 ≤ i ∧ i - (start + 1) < vs.length
      · have e : i - start = (i - (start + 1)) + 1 := by omega
        rw [dif_pos h', dif_pos (by simp only [List.length_cons]; omega)]
        simp only [e, List.getElem_cons_succ]
      · rw [dif_neg h', dif_neg (by simp only [List.length_cons]; omega)]

theorem findCell_filter_ge {n i : Nat} (m : List SampleCell) (h : n ≤ i) :
    findCell (m.filter fun c => n ≤ c.index) i = findCell m i := by
  induction m with
  | nil => rfl
  | cons d ds ih =>
    rw [List.filter_cons]
    split
    · rw [findCell_cons, findCell_cons, ih]
    · next hd =>
      rw [ih, findCell_cons, if_neg]
      simp only [decide_eq_true_eq] at hd
      omega

/-- What PENC's write does: the indices of the train read the train, the others read as before. -/
theorem findCell_writeTrain (vs : List Sample) (m : List SampleCell) (i : Nat) :
    findCell (writeTrain vs m) i =
      if h : i < vs.length then some ⟨i, vs[i], false⟩ else findCell m i := by
  rw [writeTrain, findCell_append, findCell_cellsFrom]
  by_cases h : i < vs.length
  · simp [h]
  · rw [dif_neg (by simpa using h), dif_neg h, findCell_filter_ge _ (by omega)]
    rfl

theorem mem_cellsFrom {start : Nat} {vs : List Sample} {e : SampleCell}
    (h : e ∈ cellsFrom start vs) : start ≤ e.index ∧ e.index < start + vs.length := by
  induction vs generalizing start with
  | nil => simp [cellsFrom] at h
  | cons v vs ih =>
    rcases List.mem_cons.1 h with h | h
    · subst h; simp
    · have := ih h
      simp only [List.length_cons]
      omega

theorem cellsFrom_pairwise (start : Nat) (vs : List Sample) :
    (cellsFrom start vs).Pairwise (fun c d => c.index < d.index) := by
  induction vs generalizing start with
  | nil => simp [cellsFrom]
  | cons v vs ih =>
    refine List.pairwise_cons.2 ⟨fun e he => ?_, ih (start + 1)⟩
    have := mem_cellsFrom he
    simp only
    omega

theorem writeTrain_wf {cap : Nat} {vs : List Sample} {m : List SampleCell} (hm : SamplesWf cap m)
    (hv : vs.length ≤ cap) : SamplesWf cap (writeTrain vs m) := by
  refine ⟨List.pairwise_append.2 ⟨cellsFrom_pairwise 0 vs, hm.1.filter _, ?_⟩, fun e he => ?_⟩
  · intro c hc d hd
    have h1 := mem_cellsFrom hc
    have h2 := (List.mem_filter.1 hd).2
    simp only [decide_eq_true_eq] at h2
    omega
  · rcases List.mem_append.1 he with he | he
    · have := mem_cellsFrom he; omega
    · exact hm.2 e (List.mem_filter.1 he).1

/-! ### A host write of SLEN -/

@[simp] theorem beyondSlen_index (draw n : Nat) (c : SampleCell) :
    (beyondSlen draw n c).index = c.index := by
  unfold beyondSlen; split <;> rfl

theorem findCell_map_beyondSlen (draw n : Nat) (m : List SampleCell) (i : Nat) :
    findCell (m.map (beyondSlen draw n)) i = (findCell m i).map (beyondSlen draw n) := by
  induction m with
  | nil => rfl
  | cons d ds ih =>
    rw [List.map_cons, findCell_cons, findCell_cons, ih, beyondSlen_index]
    split <;> rfl

theorem map_beyondSlen_wf {cap : Nat} {m : List SampleCell} (draw n : Nat) (hm : SamplesWf cap m) :
    SamplesWf cap (m.map (beyondSlen draw n)) := by
  refine ⟨?_, fun e he => ?_⟩
  · rw [List.pairwise_map]
    simpa using hm.1
  · obtain ⟨c, hc, rfl⟩ := List.mem_map.1 he
    simpa using hm.2 c hc

/-! ### Reading `S` -/

theorem sample_setSamples_insertCell (s : State) (c : SampleCell) (i : Nat) :
    (s.setSamples (insertCell c s.samples)).sample i =
      if c.index = i then c.value else s.sample i := by
  simp only [State.sample, State.setSamples_samples, State.setSamples_sampleDraw, findCell_insertCell]
  by_cases h : c.index = i <;> simp only [h, if_true, if_false]

theorem sample_setSamples_writeTrain (s : State) (vs : List Sample) (i : Nat) :
    (s.setSamples (writeTrain vs s.samples)).sample i =
      if h : i < vs.length then vs[i] else s.sample i := by
  simp only [State.sample, State.setSamples_samples, State.setSamples_sampleDraw, findCell_writeTrain]
  by_cases h : i < vs.length <;> simp only [h, dif_pos, dif_neg, not_false_eq_true]

/-- A write of `SLEN` leaves alone every element below the new length. -/
theorem sample_setSamples_beyondSlen (s : State) (draw n i : Nat) (h : i < n) :
    (s.setSamples (s.samples.map (beyondSlen draw n))).sample i = s.sample i := by
  simp only [State.sample, State.setSamples_samples, State.setSamples_sampleDraw,
    findCell_map_beyondSlen]
  cases hc : findCell s.samples i with
  | none => rfl
  | some c =>
    have : c.index = i := findCell_index hc
    simp only [Option.map_some, beyondSlen]
    rw [if_neg (by omega)]

/-! ### The window of PDEC -/

theorem findCell_eq_of_map_index (m : List SampleCell) (a n : Nat)
    (h : (m.take n).map SampleCell.index = List.range' a n) (i : Nat) (hi : i < n) :
    ∃ c, m[i]? = some c ∧ findCell m (a + i) = some c := by
  induction n generalizing m a i with
  | zero => omega
  | succ n ih =>
    cases m with
    | nil => simp [List.range'] at h
    | cons d ds =>
      rw [List.take_succ_cons, List.map_cons, List.range'_succ] at h
      obtain ⟨h0, h1⟩ := List.cons.inj h
      cases i with
      | zero => exact ⟨d, rfl, by simp [findCell_cons, h0]⟩
      | succ i =>
        obtain ⟨c, hc, hf⟩ := ih ds (a + 1) h1 i (by omega)
        refine ⟨c, by simpa using hc, ?_⟩
        rw [findCell_cons, if_neg (by omega), ← hf]
        congr 1; omega

/-- The window of PDEC is `S[0], ..., S[SLEN-1]`, in every state (R162). -/
theorem window_eq (s : State) : s.window = (List.range s.slen).map s.sample := by
  unfold State.window
  split
  · next h =>
    have hlen : (s.samples.take s.slen).length = s.slen := by
      have := congrArg List.length h
      simpa using this
    rw [List.range_eq_range'] at h
    refine List.ext_getElem (by simp only [List.length_map, List.length_range]; exact hlen) fun i hi _ => ?_
    have hi' : i < s.slen := by
      simp only [List.length_map] at hi
      omega
    obtain ⟨c, hc, hf⟩ := findCell_eq_of_map_index _ 0 _ h i hi'
    have hm : i < s.samples.length := by
      have := List.length_take (l := s.samples) (i := s.slen)
      omega
    have : s.samples[i] = c := by
      rw [List.getElem?_eq_getElem hm] at hc
      exact Option.some.inj hc
    simp only [List.getElem_map, List.getElem_take, this, List.getElem_range]
    rw [Nat.zero_add] at hf
    simp [State.sample, hf]
  · rfl

theorem window_length (s : State) : s.window.length = s.slen := by
  rw [window_eq]; simp

theorem window_congr {s t : State} (hl : s.slen = t.slen)
    (h : ∀ i < s.slen, s.sample i = t.sample i) : s.window = t.window := by
  rw [window_eq, window_eq, ← hl]
  exact List.map_congr_left fun i hi => h i (List.mem_range.1 hi)

end Sys2Proof.Machine
end

