-- ==== Sys2Proof/Laws/PerInstr.lean ====
section
/-!
SUPPORT. A statement about every command as syntax, one lemma per constructor (rules R80 to R82).
-/

namespace Sys2Proof.Laws.RoundTrip

/-- The command is well formed, its word is a legal word, and the decoder reads the command from it. -/
def Statement (i : Instr) : Prop :=
  i.wellFormed = true ∧ wordWellFormed (encode i) = true ∧ decode (encode i) = .ok i

theorem nop : Statement .nop := ⟨rfl, by decide, by decide⟩
theorem ckgen : Statement .ckgen := ⟨rfl, by decide, by decide⟩
theorem ckver : Statement .ckver := ⟨rfl, by decide, by decide⟩
theorem fenc : Statement .fenc := ⟨rfl, by decide, by decide⟩
theorem fdec : Statement .fdec := ⟨rfl, by decide, by decide⟩
theorem penc : Statement .penc := ⟨rfl, by decide, by decide⟩
theorem pdec : Statement .pdec := ⟨rfl, by decide, by decide⟩

end Sys2Proof.Laws.RoundTrip
end

