-- ==== Sys2Proof/Laws/PulseCodec.lean ====
section
/-!
SUPPORT. Laws of the pulse codec (rules R102 to R105, R160 to R176): tolerance windows, the unit and the
train, bit decoding, and one lemma for each sub-operation of PDEC that says all it can answer.
-/

namespace Sys2Proof.Machine

/-! ### Tolerance windows -/

theorem tolMatch_iff (v e w : Nat) : tolMatch v e w = true ↔ e < v + w ∧ v < e + w := by
  rw [tolMatch, decide_eq_true_iff, absDiff]; omega

theorem near_iff (v e : Sample) (w : Nat) :
    near v e w = true ↔ e.toNat < v.toNat + w ∧ v.toNat < e.toNat + w := tolMatch_iff _ _ _

/-- The window as the spec writes it, `|v - e| < w` over the integers (R163). -/
theorem near_iff_abs (v e : Sample) (w : Nat) :
    near v e w = true ↔ |(v.toNat : ℤ) - (e.toNat : ℤ)| < (w : ℤ) := by
  rw [near_iff, abs_lt]; omega

theorem near_eq_false_iff (v e : Sample) (w : Nat) :
    near v e w = false ↔ ¬|(v.toNat : ℤ) - (e.toNat : ℤ)| < (w : ℤ) := by
  rw [← near_iff_abs, Bool.not_eq_true]

theorem near_self (e : Sample) {w : Nat} (h : 1 ≤ w) : near e e w = true := by
  rw [near_iff]; omega

/-- Every window of half-width 0 is empty (R163, R170 (a)). -/
@[simp] theorem near_zero (v e : Sample) : near v e 0 = false := by
  rw [← Bool.not_eq_true, near_iff]; omega

theorem classifySpace_eq (c : Config) (tol : Nat) (v : Sample) :
    classifySpace c tol v =
      if near v c.tZeroSpace tol = true ∧ near v c.tOneSpace tol = false then .ok false
      else if near v c.tOneSpace tol = true ∧ near v c.tZeroSpace tol = false then .ok true
      else .error .badTiming := by
  unfold classifySpace
  cases near v c.tZeroSpace tol <;> cases near v c.tOneSpace tol <;> rfl

theorem classifySpace_error {c : Config} {tol : Nat} {v : Sample} {k : ErrKind}
    (h : classifySpace c tol v = .error k) : k = .badTiming := by
  rw [classifySpace_eq] at h
  split at h
  · cases h
  · split at h
    · cases h
    · injection h with h; exact h.symm

/-! ### Bits of a frame -/

theorem bitValue_eq (bs : List Bool) (k : Nat) : bitValue bs k = (bs.getD k false).toNat := rfl

theorem byte_of_its_bits (b : Byte) :
    BitVec.ofNat 8 ((b.getLsbD 0).toNat + 2 * (b.getLsbD 1).toNat + 4 * (b.getLsbD 2).toNat +
      8 * (b.getLsbD 3).toNat + 16 * (b.getLsbD 4).toNat + 32 * (b.getLsbD 5).toNat +
      64 * (b.getLsbD 6).toNat + 128 * (b.getLsbD 7).toNat) = b := by
  revert b; decide

theorem frameBits_length (f : Frame) : (frameBits f).length = 144 := by simp [frameBits]

theorem bitValue_frameBits (f : Frame) {k : Nat} (h : k < 144) :
    bitValue (frameBits f) k = ((frameByte f (k / 8)).getLsbD (k % 8)).toNat := by
  simp [bitValue, frameBits, List.getD_eq_getElem?_getD, h, frameBit]

theorem byteOfBits_frameBits (f : Frame) {i : Nat} (h : i < 18) :
    byteOfBits (frameBits f) i = frameByte f i := by
  have hj : ∀ j < 8, bitValue (frameBits f) (8 * i + j) = ((frameByte f i).getLsbD j).toNat := by
    intro j hj
    rw [bitValue_frameBits f (by omega)]
    congr 2 <;> first | omega | (congr 1; omega)
  have h0 := hj 0 (by omega)
  rw [Nat.add_zero] at h0
  rw [byteOfBits, h0, hj 1 (by omega), hj 2 (by omega), hj 3 (by omega), hj 4 (by omega),
    hj 5 (by omega), hj 6 (by omega), hj 7 (by omega), byte_of_its_bits]

/-- The frame of the bits of a frame is that frame (R62, R63, R165). -/
@[simp] theorem frameOfBits_frameBits (f : Frame) : frameOfBits (frameBits f) = f :=
  frame_ext fun i hi => by rw [frameOfBits, frameByte_ofFn _ i hi, byteOfBits_frameBits f hi]

/-- 144 bits are the bits of a frame exactly when bit `k` of the list is bit `k` of the frame. -/
theorem eq_frameBits {bs : List Bool} {f : Frame} (hl : bs.length = 144)
    (h : ∀ k < 144, bs.getD k false = frameBit f k) : bs = frameBits f := by
  refine List.ext_getElem (by rw [hl, frameBits_length]) fun k h1 _ => ?_
  have hk : k < 144 := by omega
  have := h k hk
  rw [List.getD_eq_getElem?_getD, List.getElem?_eq_getElem h1] at this
  simpa [frameBits] using this

/-! ### The unit and the train -/

theorem flatMap_bitCell_length (c : Config) (bs : List Bool) :
    (bs.flatMap (bitCell c)).length = 2 * bs.length := by
  induction bs with
  | nil => rfl
  | cons b bs ih =>
    rw [List.flatMap_cons, List.length_append, ih]
    simp only [bitCell, List.length_cons, List.length_nil]
    omega

@[simp] theorem pulseUnit_length (c : Config) (f : Frame) : (pulseUnit c f).length = 291 := by
  simp only [pulseUnit, List.length_append, flatMap_bitCell_length, frameBits_length,
    List.length_cons, List.length_nil]

@[simp] theorem pulseTrain_length (c : Config) (f : Frame) : (pulseTrain c f).length = 583 := by
  simp only [pulseTrain, List.length_append, pulseUnit_length, List.length_cons, List.length_nil]

theorem flatMap_bitCell_getD (c : Config) (bs : List Bool) (k : Nat) (h : k < bs.length) :
    sampleAt (bs.flatMap (bitCell c)) (2 * k) = c.tBitMark ∧
    sampleAt (bs.flatMap (bitCell c)) (2 * k + 1) =
      if bs.getD k false = true then c.tOneSpace else c.tZeroSpace := by
  induction bs generalizing k with
  | nil => simp at h
  | cons b bs ih =>
    cases k with
    | zero => simp [sampleAt, bitCell]
    | succ k =>
      have := ih k (by simpa using h)
      rw [show 2 * (k + 1) = 2 * k + 1 + 1 by omega]
      simpa [sampleAt, bitCell] using this

theorem sampleAt_append_left {u v : List Sample} {i : Nat} (h : i < u.length) :
    sampleAt (u ++ v) i = sampleAt u i := by
  simp [sampleAt, List.getD_eq_getElem?_getD, List.getElem?_append_left h]

theorem sampleAt_append_right {u v : List Sample} {i : Nat} (h : u.length ≤ i) :
    sampleAt (u ++ v) i = sampleAt v (i - u.length) := by
  simp [sampleAt, List.getD_eq_getElem?_getD, List.getElem?_append_right h]

/-- The positions of a unit (R103). -/
theorem sampleAt_pulseUnit (c : Config) (f : Frame) :
    sampleAt (pulseUnit c f) 0 = c.tHdrMark ∧ sampleAt (pulseUnit c f) 1 = c.tHdrSpace ∧
    (∀ k < 144, sampleAt (pulseUnit c f) (2 + 2 * k) = c.tBitMark ∧
      sampleAt (pulseUnit c f) (3 + 2 * k) =
        if frameBit f k = true then c.tOneSpace else c.tZeroSpace) ∧
    sampleAt (pulseUnit c f) 290 = c.tRptMark := by
  have hl : ((frameBits f).flatMap (bitCell c)).length = 288 := by
    rw [flatMap_bitCell_length, frameBits_length]
  refine ⟨rfl, rfl, fun k hk => ?_, ?_⟩
  · have hbit : (frameBits f).getD k false = frameBit f k := by
      simp [frameBits, List.getD_eq_getElem?_getD, hk]
    have h := flatMap_bitCell_getD c (frameBits f) k (by rw [frameBits_length]; exact hk)
    rw [hbit] at h
    have hd : ∀ j < 288, sampleAt (pulseUnit c f) (2 + j) =
        sampleAt ((frameBits f).flatMap (bitCell c)) j := by
      intro j hj
      rw [pulseUnit, List.append_assoc, sampleAt_append_right (by simp)]
      simp only [List.length_cons, List.length_nil, Nat.zero_add, Nat.reduceAdd, Nat.add_sub_cancel_left]
      exact sampleAt_append_left (by omega)
    rw [hd _ (by omega), show 3 + 2 * k = 2 + (2 * k + 1) by omega, hd _ (by omega)]
    exact h
  · rw [pulseUnit, sampleAt_append_right (by simp [hl])]
    simp [hl, sampleAt]

/-- The positions of a train (R104): unit, separator, the same unit again. -/
theorem sampleAt_pulseTrain (c : Config) (f : Frame) :
    (∀ p < 291, sampleAt (pulseTrain c f) p = sampleAt (pulseUnit c f) p ∧
      sampleAt (pulseTrain c f) (292 + p) = sampleAt (pulseUnit c f) p) ∧
    sampleAt (pulseTrain c f) 291 = c.tRptSpace := by
  refine ⟨fun p hp => ⟨?_, ?_⟩, ?_⟩
  · rw [pulseTrain, List.append_assoc, sampleAt_append_left (by simpa using hp)]
  · rw [pulseTrain, sampleAt_append_right (by simp)]
    simp
  · rw [pulseTrain, List.append_assoc, sampleAt_append_right (by simp)]
    simp [sampleAt]

/-! ### BITDEC -/

/-- The ideal bit cells decode to their bits, for a tolerance of at least 1 and at most the gap (R171). -/
theorem decodePairs_bitCells (c : Config) {tol : Nat} (h1 : 1 ≤ tol)
    (h2 : tol ≤ absDiff c.tOneSpace.toNat c.tZeroSpace.toNat) (bs : List Bool) :
    decodePairs c tol (bs.flatMap (bitCell c)) = .ok bs := by
  have hz : near c.tZeroSpace c.tOneSpace tol = false := by
    rw [← Bool.not_eq_true, near_iff]; simp only [absDiff] at h2; omega
  have ho : near c.tOneSpace c.tZeroSpace tol = false := by
    rw [← Bool.not_eq_true, near_iff]; simp only [absDiff] at h2; omega
  induction bs with
  | nil => rfl
  | cons b bs ih =>
    cases b <;>
      simp [List.flatMap_cons, bitCell, decodePairs, near_self, h1, classifySpace_eq, hz, ho] <;>
      simpa [bitCell] using congrArg (fun r => r >>= fun bs' => Except.ok (_ :: bs')) ih

/-- What BITDEC's pair loop answers when it succeeds (R165): one bit for each pair. -/
theorem decodePairs_eq_ok {c : Config} {tol : Nat} {d : List Sample} {bs : List Bool}
    (h : decodePairs c tol d = .ok bs) :
    bs.length = d.length / 2 ∧ ∀ k < bs.length,
      near (sampleAt d (2 * k)) c.tBitMark tol = true ∧
      classifySpace c tol (sampleAt d (2 * k + 1)) = .ok (bs.getD k false) := by
  induction d using decodePairs.induct generalizing bs with
  | case1 mark space rest ih =>
    simp only [decodePairs, bind_eq_ok, require_eq_ok] at h
    obtain ⟨_, hm, b, hb, bs', hbs, he⟩ := h
    injection he with he
    subst he
    obtain ⟨hl, hk⟩ := ih hbs
    refine ⟨by simp only [List.length_cons, hl]; omega, fun k hk' => ?_⟩
    cases k with
    | zero => exact ⟨by simpa [sampleAt] using hm, by simpa [sampleAt] using hb⟩
    | succ k =>
      have := hk k (by simpa using hk')
      rw [show 2 * (k + 1) = 2 * k + 1 + 1 by omega]
      simpa [sampleAt] using this
  | case2 x =>
    simp only [decodePairs] at h
    injection h with h
    subst h; simp
  | case3 =>
    simp only [decodePairs] at h
    injection h with h
    subst h; simp

/-- The pair loop succeeds when every pair matches (R165). -/
theorem decodePairs_ok_of_pairs {c : Config} {tol : Nat} {d : List Sample} {bit : Nat → Bool}
    (h : ∀ k < d.length / 2, near (sampleAt d (2 * k)) c.tBitMark tol = true ∧
      classifySpace c tol (sampleAt d (2 * k + 1)) = .ok (bit k)) :
    decodePairs c tol d = .ok ((List.range (d.length / 2)).map bit) := by
  induction d using decodePairs.induct generalizing bit with
  | case1 mark space rest ih =>
    have h0 := h 0 (by simp only [List.length_cons]; omega)
    have hr := ih (bit := fun k => bit (k + 1)) fun k hk => by
      have := h (k + 1) (by simp only [List.length_cons]; omega)
      rw [show 2 * (k + 1) = 2 * k + 1 + 1 by omega] at this
      simpa [sampleAt] using this
    have hn : (mark :: space :: rest).length / 2 = rest.length / 2 + 1 := by
      simp only [List.length_cons]; omega
    rw [hn, List.range_succ_eq_map, List.map_cons, List.map_map]
    simp only [sampleAt, Nat.mul_zero, List.getD_cons_zero, Nat.zero_add, List.getD_cons_succ] at h0
    simp only [decodePairs, h0.1, require_true, ok_bind, h0.2, hr]
    rfl
  | case2 x => simp [decodePairs]
  | case3 => simp [decodePairs]

/-- The pair loop reports the first bad sample: a bad mark at pair `n` after good pairs (R165, R215). -/
theorem decodePairs_badMark {c : Config} {tol : Nat} {d : List Sample} {n : Nat}
    (hn : 2 * n + 1 < d.length)
    (hp : ∀ k < n, near (sampleAt d (2 * k)) c.tBitMark tol = true ∧
      ∃ b, classifySpace c tol (sampleAt d (2 * k + 1)) = .ok b)
    (hm : near (sampleAt d (2 * n)) c.tBitMark tol = false) :
    decodePairs c tol d = .error .badMark := by
  induction n generalizing d with
  | zero =>
    match d, hn, hm with
    | mark :: space :: rest, _, hm =>
      simp only [sampleAt, Nat.mul_zero, List.getD_cons_zero] at hm
      simp [decodePairs, hm]
  | succ n ih =>
    match d, hn, hm, hp with
    | mark :: space :: rest, hn, hm, hp =>
      obtain ⟨h0, b, hb⟩ := hp 0 (by omega)
      simp only [sampleAt, Nat.mul_zero, List.getD_cons_zero, Nat.zero_add, List.getD_cons_succ]
        at h0 hb
      have hr : decodePairs c tol rest = .error .badMark := by
        refine ih (by simp only [List.length_cons] at hn; omega) (fun k hk => ?_) ?_
        · have := hp (k + 1) (by omega)
          rw [show 2 * (k + 1) = 2 * k + 1 + 1 by omega] at this
          simpa [sampleAt] using this
        · rw [show 2 * (n + 1) = 2 * n + 1 + 1 by omega] at hm
          simpa [sampleAt] using hm
      simp [decodePairs, h0, hb, hr]

/-- The pair loop reports the first bad sample: a bad space at pair `n`, its mark good (R165, R215). -/
theorem decodePairs_badTiming {c : Config} {tol : Nat} {d : List Sample} {n : Nat}
    (hn : 2 * n + 1 < d.length)
    (hp : ∀ k < n, near (sampleAt d (2 * k)) c.tBitMark tol = true ∧
      ∃ b, classifySpace c tol (sampleAt d (2 * k + 1)) = .ok b)
    (hm : near (sampleAt d (2 * n)) c.tBitMark tol = true)
    (hs : classifySpace c tol (sampleAt d (2 * n + 1)) = .error .badTiming) :
    decodePairs c tol d = .error .badTiming := by
  induction n generalizing d with
  | zero =>
    match d, hn, hm, hs with
    | mark :: space :: rest, _, hm, hs =>
      simp only [sampleAt, Nat.mul_zero, List.getD_cons_zero, Nat.zero_add, List.getD_cons_succ]
        at hm hs
      simp [decodePairs, hm, hs]
  | succ n ih =>
    match d, hn, hm, hs, hp with
    | mark :: space :: rest, hn, hm, hs, hp =>
      obtain ⟨h0, b, hb⟩ := hp 0 (by omega)
      simp only [sampleAt, Nat.mul_zero, List.getD_cons_zero, Nat.zero_add, List.getD_cons_succ]
        at h0 hb
      have hr : decodePairs c tol rest = .error .badTiming := by
        refine ih (by simp only [List.length_cons] at hn; omega) (fun k hk => ?_) ?_ ?_
        · have := hp (k + 1) (by omega)
          rw [show 2 * (k + 1) = 2 * k + 1 + 1 by omega] at this
          simpa [sampleAt] using this
        · rw [show 2 * (n + 1) = 2 * n + 1 + 1 by omega] at hm
          simpa [sampleAt] using hm
        · rw [show 2 * (n + 1) = 2 * n + 1 + 1 by omega] at hs
          simpa [sampleAt] using hs
      simp [decodePairs, h0, hb, hr]

theorem decodePairs_error {c : Config} {tol : Nat} {d : List Sample} {k : ErrKind}
    (h : decodePairs c tol d = .error k) : k = .badMark ∨ k = .badTiming := by
  induction d using decodePairs.induct with
  | case1 mark space rest ih =>
    simp only [decodePairs, bind_eq_error, require_eq_error] at h
    rcases h with ⟨_, h⟩ | ⟨_, _, h | ⟨_, _, h | ⟨_, _, h⟩⟩⟩
    · exact .inl h.symm
    · exact .inr (classifySpace_error h)
    · exact ih h
    · cases h
  | case2 x => simp [decodePairs] at h
  | case3 => simp [decodePairs] at h

theorem verifyFrame_eq (f : Frame) :
    verifyFrame f = if checksumOk f = true then .ok f else .error .checksumError := by
  unfold verifyFrame; exact require_bind_ite _ _ _

theorem verifyFrame_ok {f g : Frame} (h : verifyFrame f = .ok g) : g = f ∧ checksumOk f = true := by
  rw [verifyFrame_eq] at h
  split at h
  · next hc => injection h with h; exact ⟨h.symm, hc⟩
  · cases h

theorem verifyFrame_error {f : Frame} {k : ErrKind} (h : verifyFrame f = .error k) :
    k = .checksumError := by
  rw [verifyFrame_eq] at h
  split at h
  · cases h
  · injection h with h; exact h.symm

/-- A frame BITDEC answers carries its checksum (R165, R169). -/
theorem bitDecode_checksum {c : Config} {tol : Nat} {d : List Sample} {f : Frame}
    (h : bitDecode c tol d = .ok f) : checksumOk f = true := by
  simp only [bitDecode, bind_eq_ok] at h
  obtain ⟨bs, _, h⟩ := h
  obtain ⟨rfl, hc⟩ := verifyFrame_ok h
  exact hc

theorem bitDecode_error {c : Config} {tol : Nat} {d : List Sample} {k : ErrKind}
    (h : bitDecode c tol d = .error k) : k = .badMark ∨ k = .badTiming ∨ k = .checksumError := by
  simp only [bitDecode, bind_eq_error] at h
  rcases h with h | ⟨_, _, h⟩
  · rcases decodePairs_error h with h | h <;> simp [h]
  · exact .inr (.inr (verifyFrame_error h))

/-! ### DEC291 -/

/-- DEC291 as a chain of tests in the order of R166. -/
theorem decodeUnit_eq (c : Config) (tol : Nat) (u : List Sample) :
    decodeUnit c tol u =
      if near (sampleAt u 0) c.tHdrMark (2 * tol) = true then
        if near (sampleAt u 1) c.tHdrSpace (2 * tol) = true then
          if near (sampleAt u 290) c.tRptMark (2 * tol) = true then bitDecode c tol (slice u 2 288)
          else .error .badMark
        else .error .badTiming
      else .error .badMark := by
  unfold decodeUnit
  rw [require_bind_ite, require_bind_ite, require_bind_ite]

theorem decodeUnit_checksum {c : Config} {tol : Nat} {u : List Sample} {f : Frame}
    (h : decodeUnit c tol u = .ok f) : checksumOk f = true := by
  rw [decodeUnit_eq] at h
  split at h
  · split at h
    · split at h
      · exact bitDecode_checksum h
      · cases h
    · cases h
  · cases h

/-- A unit that decodes begins with a header mark (R166). -/
theorem decodeUnit_header {c : Config} {tol : Nat} {u : List Sample} {f : Frame}
    (h : decodeUnit c tol u = .ok f) : near (sampleAt u 0) c.tHdrMark (2 * tol) = true := by
  rw [decodeUnit_eq] at h
  split at h
  · assumption
  · cases h

/-- DEC291 fails structurally or with `ChecksumError` (R166). -/
theorem decodeUnit_error {c : Config} {tol : Nat} {u : List Sample} {k : ErrKind}
    (h : decodeUnit c tol u = .error k) : k = .badMark ∨ k = .badTiming ∨ k = .checksumError := by
  rw [decodeUnit_eq] at h
  split at h
  · split at h
    · split at h
      · exact bitDecode_error h
      · injection h with h; simp [← h]
    · injection h with h; simp [← h]
  · injection h with h; simp [← h]

theorem decodeUnit_no_header {c : Config} {tol : Nat} {u : List Sample}
    (h : near (sampleAt u 0) c.tHdrMark (2 * tol) = false) :
    decodeUnit c tol u = .error .badMark := by
  rw [decodeUnit_eq, h]; rfl

theorem slice_pulseUnit (c : Config) (f : Frame) :
    slice (pulseUnit c f) 2 288 = (frameBits f).flatMap (bitCell c) := by
  have hl : ((frameBits f).flatMap (bitCell c)).length = 288 := by
    rw [flatMap_bitCell_length, frameBits_length]
  simp only [slice, pulseUnit, List.cons_append, List.nil_append, List.drop_succ_cons,
    List.drop_zero]
  rw [List.take_append_of_le_length (by omega), List.take_of_length_le (by omega)]

/-- The framing samples of an ideal unit match for every tolerance of at least 1. -/
theorem decodeUnit_pulseUnit_eq (c : Config) {tol : Nat} (h1 : 1 ≤ tol) (f : Frame) :
    decodeUnit c tol (pulseUnit c f) = bitDecode c tol ((frameBits f).flatMap (bitCell c)) := by
  obtain ⟨h0, h2, _, h290⟩ := sampleAt_pulseUnit c f
  rw [decodeUnit_eq, h0, h2, h290, near_self _ (by omega), near_self _ (by omega),
    near_self _ (by omega), slice_pulseUnit]
  rfl

/-- The unit of a frame decodes to it exactly when the frame carries its checksum (R171). -/
theorem decodeUnit_pulseUnit (c : Config) {tol : Nat} (h1 : 1 ≤ tol)
    (h2 : tol ≤ absDiff c.tOneSpace.toNat c.tZeroSpace.toNat) (f : Frame) :
    decodeUnit c tol (pulseUnit c f) = verifyFrame f := by
  rw [decodeUnit_pulseUnit_eq c h1, bitDecode, decodePairs_bitCells c h1 h2]
  simp

/-- With a tolerance above the gap every ideal space lies in both windows (R170 (b)). -/
theorem decodeUnit_pulseUnit_wide (c : Config) {tol : Nat}
    (h : absDiff c.tOneSpace.toNat c.tZeroSpace.toNat < tol) (f : Frame) :
    decodeUnit c tol (pulseUnit c f) = .error .badTiming := by
  have h1 : 1 ≤ tol := by omega
  have hl : ((frameBits f).flatMap (bitCell c)).length = 288 := by
    rw [flatMap_bitCell_length, frameBits_length]
  obtain ⟨hm, hs⟩ := flatMap_bitCell_getD c (frameBits f) 0 (by rw [frameBits_length]; omega)
  have hp : decodePairs c tol ((frameBits f).flatMap (bitCell c)) = .error .badTiming := by
    refine decodePairs_badTiming (n := 0) (by omega) (fun k hk => absurd hk (by omega)) ?_ ?_
    · rw [hm]; exact near_self _ h1
    · rw [hs, classifySpace_eq]
      simp only [absDiff] at h
      have hzo : near c.tZeroSpace c.tOneSpace tol = true := by rw [near_iff]; omega
      have hoz : near c.tOneSpace c.tZeroSpace tol = true := by rw [near_iff]; omega
      split <;> simp [near_self, h1, hzo, hoz]
  rw [decodeUnit_pulseUnit_eq c h1, bitDecode, hp]
  rfl

/-! ### DEC583 -/

theorem decodeTrain_eq (c : Config) (tol : Nat) (t : List Sample) :
    decodeTrain c tol t =
      if near (sampleAt t 291) c.tRptSpace (2 * tol) = true then
        arbitrate (decodeUnit c tol (slice t 0 291)) (decodeUnit c tol (slice t 292 291))
      else .error .badTiming := by
  unfold decodeTrain; exact require_bind_ite _ _ _

theorem arbitrate_ok_ok (f g : Frame) :
    arbitrate (.ok f) (.ok g) = if f = g then .ok f else .error .repeatMismatch := rfl

theorem isChecksumError_ok (f : Frame) : isChecksumError (.ok f) = false := rfl

theorem isChecksumError_error (k : ErrKind) :
    isChecksumError (.error k) = decide (k = .checksumError) := by cases k <;> rfl

theorem arbitrate_ok_structural (f : Frame) {k : ErrKind} (h : k ≠ .checksumError) :
    arbitrate (.ok f) (.error k) = .ok f := by
  simp [arbitrate, isChecksumError_ok, isChecksumError_error, h]

theorem arbitrate_structural_ok (f : Frame) {k : ErrKind} (h : k ≠ .checksumError) :
    arbitrate (.error k) (.ok f) = .ok f := by
  simp [arbitrate, isChecksumError_ok, isChecksumError_error, h]

theorem arbitrate_structural_structural {j k : ErrKind} (hj : j ≠ .checksumError)
    (hk : k ≠ .checksumError) : arbitrate (.error j) (.error k) = .error .noValidFrame := by
  simp [arbitrate, isChecksumError_error, hj, hk]

theorem arbitrate_checksum_left (b : Except ErrKind Frame) :
    arbitrate (.error .checksumError) b = .error .checksumError := rfl

theorem arbitrate_checksum_right (a : Except ErrKind Frame) :
    arbitrate a (.error .checksumError) = .error .checksumError := by
  simp [arbitrate, isChecksumError_error]

/-- The arbiter answers a frame only if a half did (R167). -/
theorem arbitrate_eq_ok {a b : Except ErrKind Frame} {f : Frame} (h : arbitrate a b = .ok f) :
    a = .ok f ∨ b = .ok f := by
  unfold arbitrate at h
  split at h
  · cases h
  · cases a <;> cases b <;> simp only at h
    · cases h
    · exact .inr h
    · exact .inl h
    · split at h
      · exact .inl h
      · cases h

/-- The kinds the arbiter can report (R167, R214). -/
theorem arbitrate_eq_error {a b : Except ErrKind Frame} {k : ErrKind} (h : arbitrate a b = .error k) :
    k = .checksumError ∨ k = .repeatMismatch ∨ k = .noValidFrame := by
  unfold arbitrate at h
  split at h
  · injection h with h; simp [← h]
  · cases a <;> cases b <;> simp only at h
    · injection h with h; simp [← h]
    · cases h
    · cases h
    · split at h
      · cases h
      · injection h with h; simp [← h]

theorem slice_append_left {u v : List Sample} {n : Nat} (h : u.length = n) :
    slice (u ++ v) 0 n = u := by
  subst h; simp [slice]

theorem slice_append_right {u v : List Sample} {o n : Nat} (h : u.length = o) (hv : v.length = n) :
    slice (u ++ v) o n = v := by
  subst h; subst hv; simp [slice]

/-- DEC583 of two units and a separator. -/
theorem decodeTrain_append (c : Config) (tol : Nat) {u v : List Sample} (sep : Sample)
    (hu : u.length = 291) (hv : v.length = 291) :
    decodeTrain c tol (u ++ [sep] ++ v) =
      if near sep c.tRptSpace (2 * tol) = true then
        arbitrate (decodeUnit c tol u) (decodeUnit c tol v)
      else .error .badTiming := by
  have hs : sampleAt (u ++ [sep] ++ v) 291 = sep := by
    rw [List.append_assoc, sampleAt_append_right (by omega), hu]; rfl
  have h1 : slice (u ++ [sep] ++ v) 0 291 = u := by
    rw [List.append_assoc]; exact slice_append_left hu
  have h2 : slice (u ++ [sep] ++ v) 292 291 = v := slice_append_right (by simp [hu]) hv
  rw [decodeTrain_eq, hs, h1, h2]

/-! ### HSEARCH -/

theorem searchOffsets_cons (c : Config) (tol : Nat) (w : List Sample) (o : Nat) (os : List Nat) :
    searchOffsets c tol w (o :: os) =
      if near (sampleAt w o) c.tHdrMark (2 * tol) then
        match decodeUnit c tol (slice w o 291) with
        | .ok f => .ok f
        | .error k => if k.isStructural then searchOffsets c tol w os else .error k
      else searchOffsets c tol w os := rfl

/-- An offset the search passes over (R168): no header mark there, or a structural failure. -/
def PassedOver (c : Config) (tol : Nat) (w : List Sample) (o : Nat) : Prop :=
  near (sampleAt w o) c.tHdrMark (2 * tol) = false ∨
    ∃ k, decodeUnit c tol (slice w o 291) = .error k ∧ k.isStructural = true

theorem searchOffsets_passedOver {c : Config} {tol : Nat} {w : List Sample} {o : Nat}
    (h : PassedOver c tol w o) (os : List Nat) :
    searchOffsets c tol w (o :: os) = searchOffsets c tol w os := by
  rw [searchOffsets_cons]
  rcases h with h | ⟨k, hk, hs⟩
  · rw [h]; rfl
  · rw [hk]; simp [hs]

theorem searchOffsets_append {c : Config} {tol : Nat} {w : List Sample} {pre : List Nat}
    (h : ∀ o ∈ pre, PassedOver c tol w o) (os : List Nat) :
    searchOffsets c tol w (pre ++ os) = searchOffsets c tol w os := by
  induction pre with
  | nil => rfl
  | cons o pre ih =>
    rw [List.cons_append, searchOffsets_passedOver (h o (by simp)),
      ih fun o' ho' => h o' (by simp [ho'])]

theorem range_split {o n : Nat} (h : o < n) :
    ∃ rest, List.range n = List.range o ++ o :: rest := by
  refine ⟨List.range' (o + 1) (n - o - 1), ?_⟩
  have h1 := List.range'_append (s := 0) (m := o) (n := n - o) (step := 1)
  simp only [Nat.one_mul, Nat.zero_add] at h1
  rw [List.range_eq_range', List.range_eq_range', show n = o + (n - o) by omega, ← h1]
  congr 1
  rw [show n - o = (n - o - 1) + 1 by omega, List.range'_succ]
  congr 2; omega

/-- The search reaches the first offset it does not pass over (R168). -/
theorem headerSearch_first {c : Config} {tol : Nat} {w : List Sample} {o : Nat}
    (ho : o < w.length - 290) (hp : ∀ o' < o, PassedOver c tol w o')
    (hm : near (sampleAt w o) c.tHdrMark (2 * tol) = true) :
    (∀ f, decodeUnit c tol (slice w o 291) = .ok f → headerSearch c tol w = .ok f) ∧
    (decodeUnit c tol (slice w o 291) = .error .checksumError →
      headerSearch c tol w = .error .checksumError) := by
  obtain ⟨rest, hr⟩ := range_split ho
  have hs : headerSearch c tol w = searchOffsets c tol w (o :: rest) := by
    rw [headerSearch, hr, searchOffsets_append fun o' ho' => hp o' (List.mem_range.1 ho')]
  refine ⟨fun f hf => ?_, fun hf => ?_⟩ <;> rw [hs, searchOffsets_cons, hm, hf] <;> rfl

/-- The search that passes over every offset ends `NoHeaderFound` (R168). -/
theorem headerSearch_none {c : Config} {tol : Nat} {w : List Sample}
    (hp : ∀ o < w.length - 290, PassedOver c tol w o) :
    headerSearch c tol w = .error .noHeaderFound := by
  have := searchOffsets_append (pre := List.range (w.length - 290))
    (fun o ho => hp o (List.mem_range.1 ho)) []
  rw [List.append_nil] at this
  rw [headerSearch, this]; rfl

/-- The search answers a frame only if some unit decoded to it (R168). -/
theorem searchOffsets_eq_ok {c : Config} {tol : Nat} {w : List Sample} {os : List Nat} {f : Frame}
    (h : searchOffsets c tol w os = .ok f) : ∃ o ∈ os, decodeUnit c tol (slice w o 291) = .ok f := by
  induction os with
  | nil => cases h
  | cons o os ih =>
    rw [searchOffsets_cons] at h
    split at h
    · split at h
      · next g hg => exact ⟨o, by simp, by rw [hg, h]⟩
      · split at h
        · obtain ⟨o', ho', h'⟩ := ih h
          exact ⟨o', by simp [ho'], h'⟩
        · cases h
    · obtain ⟨o', ho', h'⟩ := ih h
      exact ⟨o', by simp [ho'], h'⟩

/-- The kinds the search can report (R168, R214). -/
theorem searchOffsets_eq_error {c : Config} {tol : Nat} {w : List Sample} {os : List Nat}
    {k : ErrKind} (h : searchOffsets c tol w os = .error k) :
    k = .checksumError ∨ k = .noHeaderFound := by
  induction os with
  | nil => injection h with h; simp [← h]
  | cons o os ih =>
    rw [searchOffsets_cons] at h
    split at h
    · split at h
      · cases h
      · next k' hk' =>
        split at h
        · exact ih h
        · next hs =>
          injection h with h
          subst h
          rcases decodeUnit_error hk' with rfl | rfl | rfl
          · exact absurd rfl hs
          · exact absurd rfl hs
          · exact .inl rfl
    · exact ih h

/-! ### PDEC's dispatch -/

theorem decodeWindow_583 {c : Config} {tol : Nat} {w : List Sample} (h : w.length = 583) :
    decodeWindow c tol w = decodeTrain c tol w := by simp [decodeWindow, h]

theorem decodeWindow_291 {c : Config} {tol : Nat} {w : List Sample} (h : w.length = 291) :
    decodeWindow c tol w = decodeUnit c tol w := by simp [decodeWindow, h]

theorem decodeWindow_search {c : Config} {tol : Nat} {w : List Sample} (h : 292 ≤ w.length)
    (h' : w.length ≠ 583) : decodeWindow c tol w = headerSearch c tol w := by
  rw [decodeWindow, if_neg h', if_neg (by omega), if_pos h]

theorem decodeWindow_short {c : Config} {tol : Nat} {w : List Sample} (h : w.length ≤ 290) :
    decodeWindow c tol w = .error .invalidLength := by
  rw [decodeWindow, if_neg (by omega), if_neg (by omega), if_neg (by omega)]

/-- A frame PDEC answers carries its checksum (R169). -/
theorem decodeWindow_checksum {c : Config} {tol : Nat} {w : List Sample} {f : Frame}
    (h : decodeWindow c tol w = .ok f) : checksumOk f = true := by
  unfold decodeWindow at h
  split at h
  · rw [decodeTrain_eq] at h
    split at h
    · rcases arbitrate_eq_ok h with h | h <;> exact decodeUnit_checksum h
    · cases h
  · split at h
    · exact decodeUnit_checksum h
    · split at h
      · obtain ⟨_, _, h⟩ := searchOffsets_eq_ok h
        exact decodeUnit_checksum h
      · cases h

end Sys2Proof.Machine
end

