-- ==== Sys2Proof/Laws/Step.lean ====
section
/-!
SUPPORT. What each command, each move of the host and one step can answer, said once (rules R48, R200 to
R204, R219): later proofs cite these and do not unfold the meanings.
-/

namespace Sys2Proof.Machine

/-! ### The decoder -/

@[simp] theorem decode_encode (i : Instr) : decode (encode i) = .ok i := by cases i <;> decide

theorem decode_reserved {w : Byte} (h : 6 < w.toNat) : decode w = .error (.reservedWord w) := by
  revert h; revert w; decide

/-! ### Commands -/

theorem execNop_eq (s : State) : exec .nop s = .next s.complete := rfl

theorem execCkgen_eq (s : State) : exec .ckgen s = .next (s.setFrame (withChecksum s.frame)).complete :=
  rfl

theorem execCkver_eq (s : State) :
    exec .ckver s = .next (if checksumOk s.frame = true then s.complete
      else s.raise .checksumError .nothing) := by
  show execCkver s = _
  unfold execCkver
  cases checksumOk s.frame <;> rfl

theorem execFenc_ok {s : State} (h : fencReady s.st s.host.wcHour s.host.wcMin = true) :
    exec .fenc s = .next (s.setFrame (encodeFrame s.st s.host.wcHour s.host.wcMin)).complete := by
  show execFenc s = _
  unfold execFenc
  rw [h]; rfl

theorem execFenc_error {s : State} (h : fencReady s.st s.host.wcHour s.host.wcMin = false) :
    exec .fenc s = .next (s.raise .preconditionViolation .frame) := by
  show execFenc s = _
  unfold execFenc
  rw [h]; rfl

theorem execFdec_ok {s : State} {d : Decoded} (h : decodeFrame s.cfg s.frame = .ok d) :
    exec .fdec s = .next (s.setSt (commit s.st d)).complete := by
  show execFdec s = _
  unfold execFdec
  rw [h]

theorem execFdec_error {s : State} {k : ErrKind} (h : decodeFrame s.cfg s.frame = .error k) :
    exec .fdec s = .next (s.raise k .nothing) := by
  show execFdec s = _
  unfold execFdec
  rw [h]

theorem execPenc_eq (s : State) :
    exec .penc s =
      .next ((s.setSamples (writeTrain (pulseTrain s.cfg s.frame) s.samples)).setSlen 583).complete :=
  rfl

theorem execPdec_ok {s : State} {f : Frame} (h : decodeWindow s.cfg s.tol.toNat s.window = .ok f) :
    exec .pdec s = .next (s.setFrame f).complete := by
  show execPdec s = _
  unfold execPdec
  rw [h]

theorem execPdec_error {s : State} {k : ErrKind}
    (h : decodeWindow s.cfg s.tol.toNat s.window = .error k) :
    exec .pdec s = .next (s.raise k .frame) := by
  show execPdec s = _
  unfold execPdec
  rw [h]

/-- Everything a command can answer: one of these next states, and nothing else. -/
theorem exec_cases {i : Instr} {s : State} {o : Host.Outcome State Fault Refusal} (h : exec i s = o) :
    (i = .nop ∧ o = .next s.complete) ∨
    (i = .ckgen ∧ o = .next (s.setFrame (withChecksum s.frame)).complete) ∨
    (i = .ckver ∧ checksumOk s.frame = true ∧ o = .next s.complete) ∨
    (i = .ckver ∧ checksumOk s.frame = false ∧ o = .next (s.raise .checksumError .nothing)) ∨
    (i = .fenc ∧ fencReady s.st s.host.wcHour s.host.wcMin = true ∧
      o = .next (s.setFrame (encodeFrame s.st s.host.wcHour s.host.wcMin)).complete) ∨
    (i = .fenc ∧ fencReady s.st s.host.wcHour s.host.wcMin = false ∧
      o = .next (s.raise .preconditionViolation .frame)) ∨
    (∃ d, i = .fdec ∧ decodeFrame s.cfg s.frame = .ok d ∧
      o = .next (s.setSt (commit s.st d)).complete) ∨
    (∃ k, i = .fdec ∧ decodeFrame s.cfg s.frame = .error k ∧ o = .next (s.raise k .nothing)) ∨
    (i = .penc ∧ o =
      .next ((s.setSamples (writeTrain (pulseTrain s.cfg s.frame) s.samples)).setSlen 583).complete) ∨
    (∃ f, i = .pdec ∧ decodeWindow s.cfg s.tol.toNat s.window = .ok f ∧
      o = .next (s.setFrame f).complete) ∨
    (∃ k, i = .pdec ∧ decodeWindow s.cfg s.tol.toNat s.window = .error k ∧
      o = .next (s.raise k .frame)) := by
  subst h
  cases i with
  | nop => exact .inl ⟨rfl, execNop_eq s⟩
  | ckgen => exact .inr (.inl ⟨rfl, execCkgen_eq s⟩)
  | ckver =>
    cases hc : checksumOk s.frame <;> simp [execCkver_eq, hc]
  | fenc =>
    cases hf : fencReady s.st s.host.wcHour s.host.wcMin
    · simp [execFenc_error hf]
    · simp [execFenc_ok hf]
  | fdec =>
    cases hd : decodeFrame s.cfg s.frame with
    | ok d => simp [execFdec_ok hd]
    | error k => simp [execFdec_error hd]
  | penc => simp [execPenc_eq]
  | pdec =>
    cases hd : decodeWindow s.cfg s.tol.toNat s.window with
    | ok f => simp [execPdec_ok hd]
    | error k => simp [execPdec_error hd]

/-! ### The host's moves and the step -/

theorem step_nil {s : State} (h : s.host.pending = []) : step s = .next s := by
  unfold step; rw [h]

theorem step_cons {s : State} {m : HostMove} {rest : List HostMove}
    (h : s.host.pending = m :: rest) : step s = hostMove m (s.withPending rest) := by
  unfold step; rw [h]

theorem issue_ok {w : Byte} {i : Instr} (h : decode w = .ok i) (s : State) :
    issue w s = exec i s := by
  unfold issue; rw [h]

theorem issue_error {w : Byte} {e : DecodeError} (h : decode w = .error e) (s : State) :
    issue w s = .next (s.raise .illegalCommand .nothing) := by
  unfold issue; rw [h]

@[simp] theorem hostMove_command_encode (i : Instr) (s : State) :
    hostMove (.command (encode i)) s = exec i s := issue_ok (decode_encode i) s

@[simp] theorem hostMove_commandIfOk_encode (i : Instr) (s : State) :
    hostMove (.commandIfOk (encode i)) s = if s.status = okCode then exec i s else .next s := by
  show (if s.status = okCode then issue (encode i) s else .next s) = _
  rw [issue_ok (decode_encode i)]

/-- A host write of an ST field writes the registers, and draws the clock's read value anew only if it wrote
`ST.clockSetting`. -/
theorem hostWriteSt_cases (s : State) (w : StWrite) (st : OperatingState) :
    (w.isClock = false ∧ s.hostWriteSt w st = s.setSt st) ∨
    (w.isClock = true ∧ s.hostWriteSt w st = (s.setSt st).redrawClock) := by
  unfold State.hostWriteSt
  cases w.isClock
  · exact .inl ⟨rfl, rfl⟩
  · exact .inr ⟨rfl, rfl⟩

theorem hostRead_cmd (s : State) (v : Nat) :
    s.hostRead .cmd v = (s.setHost { s.host with lastRead := some v }).useDraw := rfl

/-- A read of anything but `CMD` changes the host's side only (R67). -/
theorem hostRead_of_ne_cmd (s : State) {e : Element} (h : e ≠ .cmd) (v : Nat) :
    s.hostRead e v = s.setHost { s.host with lastRead := some v } := by
  cases e <;> first | rfl | exact absurd rfl h

/-- What a read returns does not depend on the host's side (R67). -/
theorem readElement_setHost (s : State) (h : HostSide) (e : Element) :
    (s.setHost h).readElement e = s.readElement e := by
  cases e with
  | st f => cases f <;> rfl
  | sample a => rfl
  | slen => rfl
  | frame a => rfl
  | tol => rfl
  | cmd => rfl
  | status => rfl

/-- Everything a move of the host can do to HPIR when it answers a next state. -/
theorem hostMove_cases {m : HostMove} {s t : State} (h : hostMove m s = .next t) :
    (∃ i v, m = .writeSample i v ∧ i < s.cfg.sCap ∧ t = s.hostWriteSample i v) ∨
    (∃ n, m = .writeSlen n ∧ n ≤ s.cfg.sCap ∧ t = s.hostWriteSlen n) ∨
    (∃ f, t = s.setFrame f) ∨ (∃ w st, t = s.hostWriteSt w st) ∨ (∃ v, t = s.setTol v) ∨
    (∃ i, exec i s = .next t) ∨ t = s.raise .illegalCommand .nothing ∨ t = s ∨
    (∃ h, t = s.setHost h) ∨ (∃ e v, t = s.hostRead e v) ∨ t = s.hostReset := by
  have hissue : ∀ w, issue w s = .next t →
      (∃ i, exec i s = .next t) ∨ t = s.raise .illegalCommand .nothing := by
    intro w hw
    cases hd : decode w with
    | ok i => exact .inl ⟨i, by rw [← issue_ok hd, hw]⟩
    | error e =>
      rw [issue_error hd] at hw
      injection hw with hw
      exact .inr hw.symm
  cases m with
  | writeSample i v =>
    simp only [hostMove] at h
    split at h
    · next hi => injection h with h; exact .inl ⟨i, v, rfl, hi, h.symm⟩
    · cases h
  | writeSlen n =>
    simp only [hostMove] at h
    split at h
    · next hn => injection h with h; exact .inr (.inl ⟨n, rfl, hn, h.symm⟩)
    · cases h
  | writeFrame i v =>
    simp only [hostMove] at h
    split at h
    · injection h with h; exact .inr (.inr (.inl ⟨_, h.symm⟩))
    · cases h
  | writeSt w =>
    simp only [hostMove] at h
    split at h
    · injection h with h; exact .inr (.inr (.inr (.inl ⟨_, _, h.symm⟩)))
    · cases h
  | writeTol v =>
    simp only [hostMove] at h
    injection h with h; exact .inr (.inr (.inr (.inr (.inl ⟨_, h.symm⟩))))
  | writeStatus v => cases h
  | command w => rcases hissue w h with h | h <;> simp [h]
  | commandIfOk w =>
    simp only [hostMove] at h
    split at h
    · rcases hissue w h with h | h <;> simp [h]
    · injection h with h; simp [h]
  | driveClock hour minute =>
    simp only [hostMove] at h
    injection h with h
    exact .inr (.inr (.inr (.inr (.inr (.inr (.inr (.inr (.inl ⟨_, h.symm⟩))))))))
  | read e =>
    simp only [hostMove] at h
    split at h
    · injection h with h
      exact .inr (.inr (.inr (.inr (.inr (.inr (.inr (.inr (.inr (.inl ⟨_, _, h.symm⟩)))))))))
    · cases h
  | reset =>
    simp only [hostMove] at h
    injection h with h; simp [h]

end Sys2Proof.Machine
end

