-- ==== Sys2Proof/Laws/Sequence.lean ====
section
/-!
SUPPORT. Laws of commands issued one after another (rules R143, R171, R202, R203): what PENC leaves for
PDEC to read, and the steps of a list of `CMD` writes.
-/

namespace Sys2Proof.Machine

/-! ### Lists of samples -/

theorem getElem_eq_sampleAt {w : List Sample} {i : Nat} (h : i < w.length) : w[i] = sampleAt w i := by
  simp [sampleAt, List.getD_eq_getElem?_getD, h]

theorem slice_eq_map_range {w : List Sample} {o n : Nat} (h : o + n ≤ w.length) :
    slice w o n = (List.range n).map fun p => sampleAt w (o + p) := by
  refine List.ext_getElem (by simp [slice]; omega) fun i h1 h2 => ?_
  simp only [List.length_map, List.length_range] at h2
  simp [slice, sampleAt, List.getD_eq_getElem?_getD, show o + i < w.length by omega]

/-! ### After PENC -/

/-- The state PENC leaves. -/
def State.afterPenc (s : State) : State :=
  ((s.setSamples (writeTrain (pulseTrain s.cfg s.frame) s.samples)).setSlen 583).complete

theorem execPenc_eq_afterPenc (s : State) : exec .penc s = .next s.afterPenc := rfl

theorem sample_afterPenc (s : State) {a : Nat} (h : a < 583) :
    s.afterPenc.sample a = sampleAt (pulseTrain s.cfg s.frame) a := by
  have hl : a < (pulseTrain s.cfg s.frame).length := by rw [pulseTrain_length]; exact h
  rw [State.afterPenc, State.complete_sample, State.setSlen_sample, sample_setSamples_writeTrain,
    dif_pos hl, getElem_eq_sampleAt]

theorem sample_afterPenc_beyond (s : State) {a : Nat} (h : 583 ≤ a) :
    s.afterPenc.sample a = s.sample a := by
  rw [State.afterPenc, State.complete_sample, State.setSlen_sample, sample_setSamples_writeTrain,
    dif_neg (by rw [pulseTrain_length]; omega)]

/-- PDEC's window after PENC is the train of `F`. -/
theorem window_afterPenc (s : State) : s.afterPenc.window = pulseTrain s.cfg s.frame := by
  rw [window_eq]
  refine List.ext_getElem (by rw [pulseTrain_length]; simp [State.afterPenc]) fun i h1 h2 => ?_
  rw [List.getElem_map, List.getElem_range, sample_afterPenc _ (by simpa using h2),
    getElem_eq_sampleAt]

/-- The arbiter on the train of a frame sees the same unit twice (R104, R167). -/
theorem decodeWindow_pulseTrain (c : Config) (tol : Nat) (f : Frame) :
    decodeWindow c tol (pulseTrain c f) =
      if near c.tRptSpace c.tRptSpace (2 * tol) = true then
        arbitrate (decodeUnit c tol (pulseUnit c f)) (decodeUnit c tol (pulseUnit c f))
      else .error .badTiming := by
  rw [decodeWindow_583 (pulseTrain_length _ _)]
  exact decodeTrain_append c tol _ (pulseUnit_length _ _) (pulseUnit_length _ _)

/-! ### FDEC's first check -/

/-- FDEC reports `ChecksumError` only for a wrong checksum (R129). -/
theorem decodeFrame_checksumError_iff {c : Config} {f : Frame} {k : ErrKind}
    (h : decodeFrame c f = .error k) : k = .checksumError ↔ checksumOk f = false := by
  constructor
  · rintro rfl
    by_contra hc
    rw [Bool.not_eq_false] at hc
    unfold decodeFrame checkChecksum at h
    rw [hc, require_true, ok_bind] at h
    simp only [bind_eq_error, checkPreamble, checkPower, checkMode, checkTemperature, checkWideVane,
      checkVane, checkTime, checkTimerProgram, checkEcono, checkLong, checkByte16, require_eq_error,
      orRaise_eq_error] at h
    simp at h
  · intro hc
    unfold decodeFrame checkChecksum at h
    rw [hc, require_false, error_bind] at h
    injection h with h
    exact h.symm

/-! ### The steps of a list of `CMD` writes -/

theorem step_command_encode (s : State) (i : Instr) (rest : List HostMove) :
    step (s.withPending (.command (encode i) :: rest)) = exec i (s.withPending rest) := by
  rw [step_cons (m := .command (encode i)) (rest := rest) rfl, hostMove_command_encode]
  rfl

theorem step_commandIfOk_of_ok {s : State} {i : Instr} {rest : List HostMove}
    (h : s.host.pending = .commandIfOk (encode i) :: rest) (h0 : s.status = okCode) :
    step s = exec i (s.withPending rest) := by
  rw [step_cons h, hostMove_commandIfOk_encode,
    if_pos (show (s.withPending rest).status = okCode from h0)]

theorem step_commandIfOk_of_error {s : State} {i : Instr} {rest : List HostMove}
    (h : s.host.pending = .commandIfOk (encode i) :: rest) (h0 : s.status ≠ okCode) :
    step s = .next (s.withPending rest) := by
  rw [step_cons h, hostMove_commandIfOk_encode,
    if_neg (show ¬(s.withPending rest).status = okCode from h0)]

end Sys2Proof.Machine
end

