-- ==== Sys2Proof/Tests/Slice0.lean ====
section
/-!
SUPPORT. Tests: the well-formedness checks refuse what they should, every command word decodes, one or two
small vectors of spec/95_test_vectors.md per command, and for every statement with hypotheses a concrete
state and operands that meet them (`witness_…`). Expected results come from spec/95_test_vectors.md and
from the worked examples of the rules, never from the model.
-/

namespace Sys2Proof.Tests

open Sys2Proof.Machine

set_option Elab.async false

/-! ### Helpers -/

/-- FX of file 95. -/
def fx : Frame :=
  #v[0x23#8, 0xCB#8, 0x26#8, 0x01#8, 0x00#8, 0x20#8, 0x08#8, 0x06#8, 0x30#8, 0x40#8, 0x4B#8, 0x00#8,
    0x00#8, 0x00#8, 0x00#8, 0x00#8, 0x00#8, 0xFE#8]

/-- The registers of file 95's example state: reset, but on, heat, 22. -/
def exampleSt : OperatingState := { State.reset.st with on := true, mode := .heat, temperature := 22#8 }

/-- The example state at 12:34. -/
def exampleState : State :=
  { State.reset with st := exampleSt, host := { State.reset.host with wcHour := 12#5, wcMin := 34#6 } }

/-- The reset state with this frame in `F`. -/
def withFrame (f : Frame) : State := { State.reset with frame := f }

/-- The reset state with this window in `S` and `SLEN`. -/
def withWindow (w : List Sample) : State :=
  { State.reset with samples := writeTrain w [], slen := w.length }

/-- UX and TX583 of file 95. -/
def ux : List Sample := pulseUnit Config.ref fx
def tx583 : List Sample := pulseTrain Config.ref fx

/-- FX with a wrong checksum, and the frame of V3a. -/
def fxBad : Frame := fx.set 17 0xFF#8
def f3a : Frame := (fx.set 10 0x00#8).set 17 0xB3#8

/-- The outcome is a next state with this property. -/
def next (o : Host.Outcome State Fault Refusal) (p : State → Bool) : Bool :=
  match o with
  | .next t => p t
  | .fault _ => false
  | .refused _ => false

theorem next_exists {o : Host.Outcome State Fault Refusal} {p : State → Bool} (h : next o p = true) :
    ∃ t, o = .next t ∧ p t = true := by
  cases o with
  | next t => exact ⟨t, rfl, h⟩
  | fault r => cases h
  | refused r => cases h

/-- A window of R163 as the model's test. -/
theorem window_iff (v e : Sample) (w : Nat) : Spec.window v e w ↔ near v e w = true :=
  (near_iff_abs v e w).symm

/-! ### Well-formedness -/

/-- rsv = 0 and op = 7 (R81, R82). -/
theorem test_wellFormed_refuses_op7 : wordWellFormed 0x07#8 = false := by decide
/-- op = 6 but rsv = 1 (V49). -/
theorem test_wellFormed_refuses_rsv : wordWellFormed 0x16#8 = false := by decide
theorem test_wellFormed_accepts_pdec : wordWellFormed 0x06#8 = true := by decide
/-- S_CAP below a train (R8). -/
theorem test_capacity_refused : Config.wf { Config.ref with sCap := 582 } = false := by decide
theorem test_capacity_accepted : Config.wf { Config.ref with sCap := 583 } = true := by decide
/-- Byte-13 codes zero, or not distinct (R96, U9). -/
theorem test_tpStart_zero_refused : Config.wf { Config.ref with tpStart := 0#8 } = false := by decide
theorem test_tpEnd_zero_refused : Config.wf { Config.ref with tpEnd := 0#8 } = false := by decide
theorem test_tpBoth_zero_refused : Config.wf { Config.ref with tpBoth := 0#8 } = false := by decide
theorem test_tpStart_tpEnd_refused : Config.wf { Config.ref with tpEnd := 5#8 } = false := by decide
theorem test_tpStart_tpBoth_refused : Config.wf { Config.ref with tpBoth := 5#8 } = false := by decide
theorem test_tpEnd_tpBoth_refused : Config.wf { Config.ref with tpBoth := 3#8 } = false := by decide
theorem test_ref_accepted : Config.wf Config.ref = true := by decide
theorem test_commands_wellFormed : Instr.all.all Instr.wellFormed = true := by decide

/-! ### Decoding: bits 7:4 rsv = 0000, bits 3:0 the opcode of R80 -/

theorem test_decode_nop : decode 0b00000000#8 = .ok .nop := by decide
theorem test_decode_ckgen : decode 0b00000001#8 = .ok .ckgen := by decide
theorem test_decode_ckver : decode 0b00000010#8 = .ok .ckver := by decide
theorem test_decode_fenc : decode 0b00000011#8 = .ok .fenc := by decide
theorem test_decode_fdec : decode 0b00000100#8 = .ok .fdec := by decide
theorem test_decode_penc : decode 0b00000101#8 = .ok .penc := by decide
theorem test_decode_pdec : decode 0b00000110#8 = .ok .pdec := by decide
theorem test_decode_op15 : decode 0b00001111#8 = .error (.reservedWord 0x0F#8) := by decide
theorem test_decodeTableWord : decodeTableWord 8 4 = some .fdec ∧ decodeTableWord 8 7 = none := by decide
theorem test_withFetchWord : step (State.reset.withFetchWord 8 3) = exec .fenc State.reset := rfl

/-! ### NOP and reserved words -/

/-- V48. -/
theorem test_nop : exec .nop { State.reset with status := 9#8 } = .next State.reset := rfl
/-- V49: 0x16 is not PDEC. -/
theorem test_reserved_word :
    step (State.reset.withFetchWord 8 0x16) = .next { State.reset with status := 13#8 } := rfl

/-! ### CKGEN, CKVER -/

/-- V9 row 1. -/
theorem test_ckgen : next (exec .ckgen (withFrame fxBad)) (fun t => t.frame == fx) = true := by decide
/-- V9 row 3: 4335 = 0x10EF. -/
theorem test_ckgen_wraps : next (exec .ckgen (withFrame (Vector.replicate 18 0xFF#8)))
    (fun t => t.frame == (Vector.replicate 18 0xFF#8).set 17 0xEF#8) = true := by decide
/-- V9 row 6. -/
theorem test_ckver_error :
    next (exec .ckver (withFrame fxBad)) (fun t => t.status == 7#8 && t.frame == fxBad) = true := by
  decide
/-- V9 row 7: CKVER does not look at the preamble. -/
theorem test_ckver_ok : next (exec .ckver (withFrame ((fx.set 0 0x22#8).set 17 0xFD#8)))
    (fun t => t.status == 0#8) = true := by decide

/-! ### FENC, FDEC -/

/-- V2. -/
theorem test_fenc_example :
    next (exec .fenc exampleState) (fun t => t.frame == fx && t.status == 0#8) = true := by decide
/-- V5: long mode wins, the vane is forced, byte 13 is 0. -/
theorem test_fenc_long_wins :
    next (exec .fenc { State.reset with st :=
      { on := true, mode := .cool, isee := true, temperature := 31#8, wideVane := .swing,
        fanSpeed := 3#8, vane := .up, clockSetting := ⟨false, 143#8⟩, lastObservedClock := ⟨false, 0#8⟩,
        timerEndTime := 143#8, timerStartTime := 1#8, timerProgram := .startAndEnd, econoCool := true,
        longMode := true, cleanMode := true, plasma := true } })
      (fun t => t.frame == #v[0x23#8, 0xCB#8, 0x26#8, 0x01#8, 0x00#8, 0x20#8, 0x58#8, 0x0F#8, 0xC6#8,
        0x43#8, 0x8F#8, 0x8F#8, 0x01#8, 0x00#8, 0x04#8, 0x14#8, 0x00#8, 0xDC#8]) = true := by decide

/-- The frame of V27a: cool, vane code 0x00, econo bit. -/
def f27a : Frame :=
  #v[0x23#8, 0xCB#8, 0x26#8, 0x01#8, 0x00#8, 0x20#8, 0x18#8, 0x06#8, 0x36#8, 0x00#8, 0x4B#8, 0x00#8,
    0x00#8, 0x00#8, 0x20#8, 0x00#8, 0x00#8, 0xF4#8]

/-- The frame of V29a: a wrong second mode code and a wrong byte 16. -/
def f29a : Frame :=
  #v[0x23#8, 0xCB#8, 0x26#8, 0x01#8, 0x00#8, 0x20#8, 0x08#8, 0x06#8, 0x32#8, 0x40#8, 0x4B#8, 0x00#8,
    0x00#8, 0x00#8, 0x00#8, 0x00#8, 0x01#8, 0x01#8]

/-- V27a. -/
theorem test_fdec_lenience : next (exec .fdec (withFrame f27a)) (fun t => t.status == 0#8 &&
    t.st.on && t.st.mode == .cool && t.st.temperature == 22#8 && t.st.vane == .auto && t.st.econoCool &&
    t.st.lastObservedClock == ⟨true, 75#8⟩ && t.st.clockSetting.auto) = true := by decide
/-- V29a: the earlier check wins, and nothing is committed. -/
theorem test_fdec_first_failure : next (exec .fdec (withFrame f29a)) (fun t => t.status == 3#8 &&
    !t.st.on && t.st.temperature == 20#8 && !t.st.lastObservedClock.valid && t.frame == f29a) = true := by decide

/-! ### PENC, PDEC -/

/-- R160's worked example, the separator and the length. -/
theorem test_penc : next (exec .penc (withFrame fx)) (fun t => t.slen == 583 &&
    ((List.range 8).map t.sample == [3400#32, 1750#32, 450#32, 1300#32, 450#32, 1300#32, 450#32, 420#32])
    && t.sample 291 == 17100#32 && t.sample 292 == 3400#32 && t.sample 582 == 440#32) = true := by
  decide +kernel
/-- V35b: the first half's trailing repeat mark is out of its window; the second half is returned. -/
theorem test_pdec_arbiter :
    next (exec .pdec (withWindow (tx583.set 290 1040#32))) (fun t => t.status == 0#8 && t.frame == fx) =
      true := by decide +kernel
/-- V41: a false header at offset 2, the true one at offset 5. -/
theorem test_pdec_search :
    next (exec .pdec (withWindow ([9000#32, 100#32, 3400#32, 1750#32, 450#32] ++ ux)))
      (fun t => t.status == 0#8 && t.frame == fx) = true := by decide +kernel

/-! ### Witnesses: reset, the invariant, the step -/

theorem witness_ResetStateIsAsSpecified :
    (∃ s, s = State.reset) ∧ ∃ s c d h, s = State.resetWith c d h ∧ c = { Config.ref with sCap := 583 } :=
  ⟨⟨_, rfl⟩, _, _, 7, HostSide.initial, rfl, rfl⟩

theorem witness_HostResetGivesResetState :
    ∃ s : State, s.host.pending = [.reset] ∧ s.tol = 0#16 :=
  ⟨{ exampleState with tol := 0#16, host := { State.reset.host with pending := [.reset] } }, rfl, rfl⟩

theorem witness_ResetMeetsInvariant :
    Config.ref.wf = true ∧ ({ Config.ref with sCap := 583 } : Config).wf = true := by decide

theorem reset_inv : State.reset.Inv where
  cfgWf := by decide
  samplesWf := ⟨List.Pairwise.nil, fun c hc => by cases hc⟩
  slenLe := by decide
  statusLe := by decide
  drawLt := by decide
  clockDrawLt := by decide

theorem witness_StepKeepsInvariant :
    ∃ s t : State, s.Inv ∧ step s = .next t ∧ t.status = 11#8 :=
  ⟨State.reset.withFetchWord 8 6, _,
    ⟨reset_inv.1, reset_inv.2, reset_inv.3, reset_inv.4, reset_inv.5, reset_inv.6⟩, rfl, by decide⟩

theorem witness_StepRunsDecodedCommand : ∃ (s : State) (w : Byte) (rest : List HostMove) (i : Instr),
    s.host.pending = .command w :: rest ∧ decode w = .ok i :=
  ⟨State.reset.withPending [.command 0x06#8, .command 0x04#8], 0x06#8, [.command 0x04#8], .pdec, rfl,
    by decide⟩

/-- A write, and a conditional command on each side of `STATUS`. -/
theorem witness_StepMakesNextMove :
    (State.reset.withPending [.writeTol 7#16]).host.pending = .writeTol 7#16 :: [] ∧
    (State.reset.withPending [.command 5#8, .reset]).host.pending = .command 5#8 :: [.reset] ∧
    (∃ s : State, s.host.pending = .commandIfOk 5#8 :: [] ∧ s.status = 0#8) ∧
    (∃ s : State, s.host.pending = .commandIfOk 5#8 :: [] ∧ s.status ≠ 0#8) :=
  ⟨rfl, rfl, ⟨State.reset.withPending [.commandIfOk 5#8], rfl, rfl⟩,
    ⟨{ State.reset with status := 12#8 }.withPending [.commandIfOk 5#8], rfl, by decide⟩⟩

theorem witness_IdleStepKeepsState : State.reset.host.pending = [] := rfl

theorem witness_ReservedWordIsIllegalCommand :
    6 < (0x07#8 : Byte).toNat ∧ 6 < (0x16#8 : Byte).toNat ∧ 6 < (0xFF#8 : Byte).toNat := by decide

/-! ### Witnesses: all commands -/

/-- Every clause: a command that ends so, PDEC at the lengths where its cases meet. -/
theorem witness_OutcomesPerCommand :
    next (exec .penc State.reset) (fun t => t.slen == 583) = true ∧
    next (exec .ckver (withFrame fxBad)) (fun t => t.status == 7#8) = true ∧
    next (exec .fenc { exampleState with st := { exampleSt with temperature := 32#8 } })
      (fun t => t.status == 12#8) = true ∧
    next (exec .fdec (withFrame f29a)) (fun t => t.status == 3#8) = true ∧
    next (exec .pdec (withWindow (ux.take 290))) (fun t => t.status == 11#8) = true ∧
    next (issue 0x07#8 State.reset) (fun t => t.status == 13#8) = true := by decide +kernel
theorem witness_OutcomesPerCommand_291 :
    next (exec .pdec (withWindow (ux.set 7 720#32))) (fun t => t.slen == 291 && t.status == 6#8) =
      true := by decide +kernel
theorem witness_OutcomesPerCommand_583 :
    next (exec .pdec (withWindow (tx583.set 291 16500#32)))
      (fun t => t.slen == 583 && t.status == 6#8) = true := by decide +kernel
theorem witness_OutcomesPerCommand_292 :
    next (exec .pdec (withWindow (9000#32 :: ux))) (fun t => t.slen == 292 && t.status == 0#8) =
      true := by decide +kernel

theorem witness_FailingCommandEffects :
    (∃ t, exec .fdec (withFrame f29a) = .next t ∧ t.status ≠ 0#8) ∧
    (∃ t, exec .ckver (withFrame fxBad) = .next t ∧ t.status ≠ 0#8) ∧
    (∃ t, exec .pdec State.reset = .next t ∧ t.status ≠ 0#8) ∧
    decode 0x07#8 = .error (.reservedWord 0x07#8) := by
  refine ⟨?_, ?_, ?_, by decide⟩
  · obtain ⟨t, h, hp⟩ := next_exists (p := fun t => t.status != 0#8)
      (show next (exec .fdec (withFrame f29a)) _ = true by decide)
    exact ⟨t, h, by simpa using hp⟩
  · obtain ⟨t, h, hp⟩ := next_exists (p := fun t => t.status != 0#8)
      (show next (exec .ckver (withFrame fxBad)) _ = true by decide)
    exact ⟨t, h, by simpa using hp⟩
  · obtain ⟨t, h, hp⟩ := next_exists (p := fun t => t.status != 0#8)
      (show next (exec .pdec State.reset) _ = true by decide)
    exact ⟨t, h, by simpa using hp⟩

theorem witness_CommandsWriteOnlyTheirDestinations : ∀ i : Instr, ∃ t, exec i exampleState = .next t := by
  intro i
  cases i with
  | nop => exact ⟨_, rfl⟩
  | ckgen => exact ⟨_, rfl⟩
  | ckver => exact ⟨_, rfl⟩
  | fenc => exact ⟨_, rfl⟩
  | fdec => exact ⟨_, rfl⟩
  | penc => exact ⟨_, rfl⟩
  | pdec => exact ⟨_, rfl⟩

/-! ### Witnesses: FENC and FDEC -/

/-- Registers at the upper ends of R123's ranges, the temperature at its lower end. -/
def edgeSt : OperatingState :=
  { exampleSt with
    temperature := 16#8, fanSpeed := 3#8, timerEndTime := 143#8, timerStartTime := 143#8
    clockSetting := ⟨false, 143#8⟩ }

/-- The ends of every range of R123. -/
theorem witness_FencLegal :
    State.FencLegal exampleState ∧ State.FencLegal { exampleState with st := edgeSt } ∧
    State.FencLegal
      { exampleState with
        st := { exampleSt with temperature := 31#8 }
        host := { State.reset.host with wcHour := 23#5, wcMin := 59#6 } } :=
  ⟨(State.fencLegal_iff _).2 (by decide), (State.fencLegal_iff _).2 (by decide),
    (State.fencLegal_iff _).2 (by decide)⟩

/-- A state for each range test of R123 that fails on its first value outside (V8); the states of
`witness_FencLegal` pass them all. -/
theorem witness_FencChecksPreconditions :
    { exampleState with st := { exampleSt with temperature := 15#8 } }.st.temperature.toNat < 16 ∧
    31 < { exampleState with st := { exampleSt with temperature := 32#8 } }.st.temperature.toNat ∧
    3 < { exampleState with st := { exampleSt with fanSpeed := 4#8 } }.st.fanSpeed.toNat ∧
    (exampleState.st.clockSetting.auto = true ∧
      23 < { exampleState.host with wcHour := 24#5 }.wcHour.toNat ∧
      59 < { exampleState.host with wcMin := 60#6 }.wcMin.toNat) ∧
    143 < ({ edgeSt with clockSetting := ⟨false, 144#8⟩ } : OperatingState).clockSetting.value.toNat ∧
    143 < { exampleState with st := { exampleSt with timerEndTime := 144#8 } }.st.timerEndTime.toNat ∧
    143 <
      { exampleState with st := { exampleSt with timerStartTime := 144#8 } }.st.timerStartTime.toNat := by
  decide

/-- Two states that differ in the timer program, the observed clock and, the clock being explicit, the
wall clock. -/
theorem witness_FencReadsOnlyItsInputs_explicit : ∃ s t : State, s ≠ t ∧
    s.st = { t.st with timerProgram := s.st.timerProgram,
                       lastObservedClock := s.st.lastObservedClock,
                       clockSetting := s.st.clockSetting } ∧
    s.st.clockSetting.auto = t.st.clockSetting.auto ∧
    (s.st.clockSetting.auto = false → s.st.clockSetting.value = t.st.clockSetting.value) ∧
    (s.st.clockSetting.auto = true → s.host.wcHour = t.host.wcHour ∧ s.host.wcMin = t.host.wcMin) :=
  ⟨{ exampleState with st := { exampleSt with clockSetting := ⟨false, 5#8⟩, timerProgram := .start } },
    { exampleState with
      st := { exampleSt with clockSetting := ⟨false, 5#8⟩, lastObservedClock := ⟨true, 9#8⟩ }
      host := { State.reset.host with wcHour := 24#5, wcMin := 60#6 } },
    fun h => by
      have := congrArg (fun s : State => s.st.timerProgram) h
      revert this; decide,
    rfl, rfl, fun _ => rfl, fun h => by cases h⟩

/-- Two states that differ in the clock's value, the clock being automatic. -/
theorem witness_FencReadsOnlyItsInputs_auto : ∃ s t : State, s ≠ t ∧
    s.st = { t.st with timerProgram := s.st.timerProgram,
                       lastObservedClock := s.st.lastObservedClock,
                       clockSetting := s.st.clockSetting } ∧
    s.st.clockSetting.auto = t.st.clockSetting.auto ∧
    (s.st.clockSetting.auto = false → s.st.clockSetting.value = t.st.clockSetting.value) ∧
    (s.st.clockSetting.auto = true → s.host.wcHour = t.host.wcHour ∧ s.host.wcMin = t.host.wcMin) :=
  ⟨{ exampleState with st := { exampleSt with clockSetting := ⟨true, 5#8⟩ } },
    { exampleState with st := { exampleSt with clockSetting := ⟨true, 200#8⟩ } },
    fun h => by
      have := congrArg (fun s : State => s.st.clockSetting.value) h
      revert this; decide,
    rfl, rfl, (fun h => by cases h), fun _ => ⟨rfl, rfl⟩⟩

/-- The three rows of R127. -/
theorem witness_FencNormalisesInvariants :
    (∃ s : State, s.FencLegal ∧ s.st.econoCool = true ∧ s.st.mode = .cool ∧ s.st.longMode = false) ∧
    (∃ s : State, s.FencLegal ∧ s.st.econoCool = true ∧ s.st.mode ≠ .cool ∧ s.st.longMode = false) ∧
    (∃ s : State, s.FencLegal ∧ s.st.longMode = true ∧ s.st.vane ≠ .auto) :=
  ⟨⟨{ exampleState with st := { exampleSt with mode := .cool, econoCool := true } },
      (State.fencLegal_iff _).2 (by decide), by decide⟩,
    ⟨{ exampleState with st := { exampleSt with econoCool := true } },
      (State.fencLegal_iff _).2 (by decide), by decide⟩,
    ⟨{ exampleState with st := { exampleSt with longMode := true, vane := .up } },
      (State.fencLegal_iff _).2 (by decide), by decide⟩⟩

/-- A frame of each side, read by the statement's own `fdecStatus`. -/
theorem witness_FdecDecodesFrame :
    Spec.fdecStatus Config.ref (frameByte f29a) = 3#8 ∧
    Spec.fdecStatus Config.ref (frameByte f27a) = 0#8 ∧
    Spec.fdecStatus Config.ref (frameByte fxBad) = 7#8 := by decide +kernel

theorem witness_FdecSuccessIsConsistent : ∃ s t : State, exec .fdec s = .next t ∧ t.status = 0#8 := by
  obtain ⟨t, h, hp⟩ := next_exists (p := fun t => t.status == 0#8)
    (show next (exec .fdec (withFrame f27a)) _ = true by decide)
  exact ⟨_, t, h, by simpa using hp⟩

/-- A valid state for the last clause of the round trip. -/
theorem exampleState_valid : exampleState.st.Valid where
  inRange := ⟨by decide, by decide, by decide, by decide⟩
  clock := fun h => by cases h
  observed := fun h => by cases h
  consistent := ⟨(fun h => by cases h), (fun h => by cases h)⟩
  notBoth := by decide

theorem witness_FrameRoundTrip : ∃ s : State, s.FencLegal ∧ s.st.Valid :=
  ⟨exampleState, witness_FencLegal.1, exampleState_valid⟩

/-! ### Witnesses: PDEC -/

/-- Each side of the dispatch, an `Ok` and an `Err`. -/
theorem witness_PdecDispatchesOnLength :
    decodeTrain Config.ref 300 tx583 = .ok fx ∧ decodeUnit Config.ref 300 ux = .ok fx ∧
    headerSearch Config.ref 300 (9000#32 :: ux) = .ok fx ∧
    decodeUnit Config.ref 300 (ux.set 6 750#32) = .error .badMark := by decide +kernel

theorem witness_ToleranceWindowIsOpen : 1 ≤ 1 ∧ 300 ≤ 420 := by decide

theorem witness_WellSeparatedWindowsAreDisjoint :
    1 ≤ 440 ∧ 2 * 440 - 1 ≤ absDiff 1300 420 ∧ ¬2 * 441 - 1 ≤ absDiff 1300 420 := by decide

/-- 719 a zero, 1001 a one, 720 neither (V33), and 860 both when the tolerance is 441. -/
theorem witness_SpaceClassification :
    Spec.isZeroSpace Config.ref 300 719#32 ∧ Spec.isOneSpace Config.ref 300 1001#32 ∧
    (¬Spec.isZeroSpace Config.ref 300 720#32 ∧ ¬Spec.isOneSpace Config.ref 300 720#32) ∧
    (¬Spec.isZeroSpace Config.ref 441 860#32 ∧ ¬Spec.isOneSpace Config.ref 441 860#32) := by
  simp only [Spec.isZeroSpace, Spec.isOneSpace, window_iff]; decide

/-- R172's two values. -/
theorem witness_ZeroWindowUpperEdge :
    (2 * 300 - 1 ≤ Spec.gap Config.ref ∧ (719#32 : Sample).toNat = Config.ref.tZeroSpace.toNat + 300 - 1) ∧
    (Config.ref.tZeroSpace.toNat + 300 ≤ (720#32 : Sample).toNat ∧
      ¬Spec.window 720#32 Config.ref.tOneSpace 300) := by
  simp only [window_iff]; decide

/-- The interior of UX, of UX with a bad mark at pair 2, and of UX with a bad space at pair 2. -/
def uxCells : List Sample := slice ux 2 288

/-- `Spec.goodPair` as the model's tests. -/
theorem goodPair_of {c : Config} {tol : Nat} {d : List Sample} {k : Nat}
    (h : (near (sampleAt d (2 * k)) c.tBitMark tol &&
      (near (sampleAt d (2 * k + 1)) c.tZeroSpace tol !=
        near (sampleAt d (2 * k + 1)) c.tOneSpace tol)) = true) : Spec.goodPair c tol d k := by
  simp only [Spec.goodPair, Spec.isZeroSpace, Spec.isOneSpace, window_iff]
  revert h
  cases near (sampleAt d (2 * k)) c.tBitMark tol <;>
    cases near (sampleAt d (2 * k + 1)) c.tZeroSpace tol <;>
    cases near (sampleAt d (2 * k + 1)) c.tOneSpace tol <;> simp

theorem witness_BitDecoding_badMark : (uxCells.set 4 750#32).length = 288 ∧
    (∀ j < 2, Spec.goodPair Config.ref 300 (uxCells.set 4 750#32) j) ∧
    ¬Spec.window (sampleAt (uxCells.set 4 750#32) (2 * 2)) Config.ref.tBitMark 300 :=
  ⟨by decide +kernel, fun j hj => goodPair_of (by revert j; decide +kernel), by
    rw [window_iff]; decide +kernel⟩

theorem witness_BitDecoding_badTiming : (uxCells.set 5 720#32).length = 288 ∧
    (∀ j < 2, Spec.goodPair Config.ref 300 (uxCells.set 5 720#32) j) ∧
    Spec.window (sampleAt (uxCells.set 5 720#32) (2 * 2)) Config.ref.tBitMark 300 ∧
    ¬Spec.goodPair Config.ref 300 (uxCells.set 5 720#32) 2 :=
  ⟨by decide +kernel, fun j hj => goodPair_of (by revert j; decide +kernel), by
    rw [window_iff]; decide +kernel, by
    simp only [Spec.goodPair, Spec.isZeroSpace, Spec.isOneSpace, window_iff]; decide +kernel⟩

theorem witness_BitDecoding_frame : uxCells.length = 288 ∧
    (∀ k < 144, Spec.goodPair Config.ref 300 uxCells k) ∧
    ∀ k < 144, Spec.bit (frameByte fx) k = true ↔
      Spec.isOneSpace Config.ref 300 (sampleAt uxCells (2 * k + 1)) := by
  refine ⟨by decide +kernel, fun k hk => goodPair_of (by revert k; decide +kernel), ?_⟩
  simp only [Spec.isOneSpace, window_iff]
  decide +kernel

/-- One unit for each way through R166's framing tests, at V33's edges. -/
theorem witness_UnitDecoding :
    ((ux.set 0 4000#32).length = 291 ∧
      ¬Spec.window (sampleAt (ux.set 0 4000#32) 0) Config.ref.tHdrMark (2 * 300)) ∧
    ((ux.set 1 2350#32).length = 291 ∧
      Spec.window (sampleAt (ux.set 1 2350#32) 0) Config.ref.tHdrMark (2 * 300) ∧
      ¬Spec.window (sampleAt (ux.set 1 2350#32) 1) Config.ref.tHdrSpace (2 * 300)) ∧
    ((ux.set 290 1040#32).length = 291 ∧
      Spec.window (sampleAt (ux.set 290 1040#32) 0) Config.ref.tHdrMark (2 * 300) ∧
      Spec.window (sampleAt (ux.set 290 1040#32) 1) Config.ref.tHdrSpace (2 * 300) ∧
      ¬Spec.window (sampleAt (ux.set 290 1040#32) 290) Config.ref.tRptMark (2 * 300)) ∧
    ((ux.set 290 1039#32).length = 291 ∧
      Spec.window (sampleAt (ux.set 290 1039#32) 0) Config.ref.tHdrMark (2 * 300) ∧
      Spec.window (sampleAt (ux.set 290 1039#32) 1) Config.ref.tHdrSpace (2 * 300) ∧
      Spec.window (sampleAt (ux.set 290 1039#32) 290) Config.ref.tRptMark (2 * 300)) := by
  simp only [window_iff]; decide +kernel

/-- The outcomes of the two halves of a train, as the statement about R167 writes them. -/
def halves (t : List Sample) : Except ErrKind Frame × Except ErrKind Frame :=
  (decodeUnit Config.ref 300 ((List.range 291).map fun p => sampleAt t p),
    decodeUnit Config.ref 300 ((List.range 291).map fun p => sampleAt t (292 + p)))

theorem halves_eq {t : List Sample} (h : t.length = 583) :
    halves t = (decodeUnit Config.ref 300 (slice t 0 291), decodeUnit Config.ref 300 (slice t 292 291)) := by
  rw [slice_eq_map_range (w := t) (o := 0) (by omega), slice_eq_map_range (by omega)]
  simp [halves]

/-- The separator at V45's edges. -/
theorem witness_ArbiterOutcomeTable_separator :
    ((tx583.set 291 16500#32).length = 583 ∧
      ¬Spec.window (sampleAt (tx583.set 291 16500#32) 291) Config.ref.tRptSpace (2 * 300)) ∧
    ((tx583.set 291 16501#32).length = 583 ∧
      Spec.window (sampleAt (tx583.set 291 16501#32) 291) Config.ref.tRptSpace (2 * 300)) := by
  simp only [window_iff]; decide +kernel
/-- Rows V34, V30 and V37 of R167's table. -/
theorem witness_ArbiterOutcomeTable_framed :
    halves (tx583.set 7 1300#32) = (.error .checksumError, .ok fx) ∧
    halves tx583 = (.ok fx, .ok fx) ∧
    halves (ux ++ [17100#32] ++ pulseUnit Config.ref f3a) = (.ok fx, .ok f3a) := by
  rw [halves_eq (by decide +kernel), halves_eq (by decide +kernel), halves_eq (by decide +kernel)]
  decide +kernel
/-- Rows V35a, V35 and V36 of R167's table. -/
theorem witness_ArbiterOutcomeTable_structural :
    halves (tx583.set 297 900#32) = (.ok fx, .error .badTiming) ∧
    halves (tx583.set 5 900#32) = (.error .badTiming, .ok fx) ∧
    halves ((tx583.set 5 900#32).set 296 900#32) = (.error .badTiming, .error .badMark) := by
  rw [halves_eq (by decide +kernel), halves_eq (by decide +kernel), halves_eq (by decide +kernel)]
  decide +kernel

/-- Success at the last offset behind an offset passed over. -/
theorem witness_HeaderSearchFirstSuccess_ok :
    (∀ o' < 1, Spec.passedOver Config.ref 300 (9000#32 :: ux) o') ∧
    Spec.window (sampleAt (9000#32 :: ux) 1) Config.ref.tHdrMark (2 * 300) ∧
    decodeUnit Config.ref 300 (slice (9000#32 :: ux) 1 291) = .ok fx ∧
    292 ≤ (9000#32 :: ux).length ∧ 1 ≤ (9000#32 :: ux).length - 291 := by
  simp only [Spec.passedOver, window_iff]; decide +kernel
theorem witness_HeaderSearchFirstSuccess_checksum :
    (∀ o' < 1, Spec.passedOver Config.ref 300 (9000#32 :: pulseUnit Config.ref fxBad) o') ∧
    Spec.window (sampleAt (9000#32 :: pulseUnit Config.ref fxBad) 1) Config.ref.tHdrMark (2 * 300) ∧
    decodeUnit Config.ref 300 (slice (9000#32 :: pulseUnit Config.ref fxBad) 1 291) =
      .error .checksumError := by
  simp only [Spec.passedOver, window_iff]; decide +kernel
/-- V46 and V46a at 292 samples: no header mark, and header marks that lead nowhere. -/
theorem witness_HeaderSearchFirstSuccess_none :
    (∀ o ≤ 292 - 291, Spec.passedOver Config.ref 300 (List.replicate 292 500#32) o) ∧
    (∀ o ≤ 292 - 291, Spec.passedOver Config.ref 300 (List.replicate 292 3400#32) o) := by
  simp only [Spec.passedOver, window_iff]; decide +kernel

theorem witness_PdecRecoversChecksummedFrame :
    next (exec .pdec (withWindow ux)) (fun t => t.status == 0#8) = true := by decide +kernel

theorem witness_ZeroToleranceOutcomes :
    ({ withWindow ux with tol := 0#16 } : State).slen = 291 ∧
    ({ withWindow tx583 with tol := 0#16 } : State).slen = 583 ∧
    ({ withWindow (9000#32 :: ux) with tol := 0#16 } : State).slen = 292 := by decide +kernel

/-- Both ends of the range of tolerances, one frame with its checksum and one without. -/
theorem witness_PulseRoundTrip :
    1 ≤ (1#16 : BitVec 16).toNat ∧ (880#16 : BitVec 16).toNat ≤ Spec.gap Config.ref ∧
    frameByte fx 17 = Spec.cksumOf (frameByte fx) ∧
    frameByte fxBad 17 ≠ Spec.cksumOf (frameByte fxBad) := by decide +kernel

theorem witness_RoundTripToleranceLimits :
    (0#16 : BitVec 16).toNat = 0 ∧ Spec.gap Config.ref < (881#16 : BitVec 16).toNat := by decide

/-- PDEC reads back the window a test wrote. -/
theorem withWindow_samples (w : List Sample) :
    (List.range (withWindow w).slen).map (withWindow w).sample = w := by
  show (List.range w.length).map (State.reset.setSamples (writeTrain w State.reset.samples)).sample = w
  refine List.ext_getElem (by simp) fun i _ h => ?_
  rw [List.getElem_map, List.getElem_range, sample_setSamples_writeTrain, dif_pos h]

/-- The same unit twice, and two units of different frames (V30, V37). -/
theorem witness_RepeatedUnitsReconcile :
    (∃ s : State, (List.range s.slen).map s.sample = ux ++ [17100#32] ++ ux ∧
      s.cfg = Config.ref ∧ s.tol.toNat = 300) ∧
    (∃ s : State, (List.range s.slen).map s.sample = ux ++ [17100#32] ++ pulseUnit Config.ref f3a ∧
      s.cfg = Config.ref ∧ s.tol.toNat = 300) :=
  ⟨⟨_, withWindow_samples _, rfl, rfl⟩, ⟨_, withWindow_samples _, rfl, rfl⟩⟩

theorem witness_RepeatedUnitsReconcile_units :
    ux.length = 291 ∧ (pulseUnit Config.ref f3a).length = 291 ∧
    decodeUnit Config.ref 300 ux = .ok fx ∧
    decodeUnit Config.ref 300 (pulseUnit Config.ref f3a) = .ok f3a ∧ fx ≠ f3a ∧
    Spec.window 17100#32 Config.ref.tRptSpace (2 * 300) := by
  simp only [window_iff]; decide +kernel

theorem junk_no_header {n : Nat} :
    ∀ x ∈ List.replicate n 9000#32, ¬Spec.window x Config.ref.tHdrMark (2 * 300) := by
  intro x hx
  rw [List.eq_of_mem_replicate hx, window_iff]
  decide

/-- A good unit behind any junk is the window of a state. -/
theorem witness_HeaderSearchSkipsJunk_window (junk : List Sample) : ∃ s : State,
    (List.range s.slen).map s.sample = junk ++ ux ∧ s.cfg = Config.ref ∧ s.tol.toNat = 300 :=
  ⟨_, withWindow_samples _, rfl, rfl⟩

/-- Junk of 292 and 293 samples (V38, V40b), and 292 of them with a repeat space last (V39). -/
theorem witness_HeaderSearchSkipsJunk :
    (∀ x ∈ List.replicate 293 9000#32, ¬Spec.window x Config.ref.tHdrMark (2 * 300)) ∧
    (∀ x ∈ List.replicate 292 9000#32, ¬Spec.window x Config.ref.tHdrMark (2 * 300)) ∧
    (∀ x ∈ List.replicate 291 9000#32 ++ [17100#32],
      ¬Spec.window x Config.ref.tHdrMark (2 * 300)) ∧
    Spec.window 17100#32 Config.ref.tRptSpace (2 * 300) ∧
    ¬Spec.window 9000#32 Config.ref.tRptSpace (2 * 300) := by
  refine ⟨junk_no_header, junk_no_header, fun x hx => ?_, ?_, ?_⟩
  · rcases List.mem_append.1 hx with hx | hx
    · exact junk_no_header x hx
    · rw [List.mem_singleton.1 hx, window_iff]; decide
  · rw [window_iff]; decide
  · rw [window_iff]; decide

/-- The good unit behind the junk. -/
theorem witness_HeaderSearchSkipsJunk_unit :
    ux.length = 291 ∧ decodeUnit Config.ref 300 ux = .ok fx := by decide +kernel

/-! ### Witnesses: what a command reads -/

/-- Two states that differ at index `SLEN` and in the registers. -/
theorem witness_PdecReadsOnlyTheWindow : ∃ s t : State, s ≠ t ∧ s.cfg = t.cfg ∧ s.tol = t.tol ∧
    s.slen = t.slen ∧ (∀ a < s.slen, s.sample a = t.sample a) ∧ s.sample 1 ≠ t.sample 1 :=
  ⟨{ State.reset with samples := [⟨0, 5#32, true⟩, ⟨1, 6#32, true⟩], slen := 1 },
    { exampleState with samples := [⟨0, 5#32, true⟩, ⟨1, 7#32, true⟩], slen := 1 },
    fun h => by
      have := congrArg (fun s : State => s.st.on) h
      revert this; decide,
    rfl, rfl, rfl, by decide, by decide⟩

theorem witness_FrameCommandsReadOnlyTheFrame : ∃ s t : State, s ≠ t ∧ s.cfg = t.cfg ∧
    s.frame = t.frame :=
  ⟨withFrame fx, { exampleState with frame := fx, tol := 7#16 }, fun h => by
    have := congrArg State.tol h
    revert this; decide, rfl, rfl⟩

/-! ### Witnesses: the host boundary -/

theorem witness_HostEnumerationWrites : (7#3 : BitVec 3).toNat = 7 ∧ (6#3 : BitVec 3).toNat ≠ 7 := by
  decide

/-- The last length and the first one too many; an element the host wrote and one PENC wrote. -/
theorem witness_HostSlenWrite : State.reset.cfg.sCap < 1025 ∧ 1024 ≤ State.reset.cfg.sCap ∧
    findCell { State.reset with samples := [⟨0, 5#32, false⟩, ⟨1, 6#32, true⟩] }.samples 1 =
      some ⟨1, 6#32, true⟩ := by decide

theorem witness_HostElementWrites : 1023 < State.reset.cfg.sCap ∧ State.reset.cfg.sCap ≤ 1024 ∧
    17 < 18 ∧ 18 ≤ 18 := by decide

theorem witness_HostReadChangesNothing :
    (∀ a, (Element.sample 1023) = .sample a → a < State.reset.cfg.sCap) ∧
    (∀ a, (Element.frame 17) = .frame a → a < 18) ∧ (∀ a, Element.status = .sample a → a < 18) := by
  refine ⟨fun a h => ?_, fun a h => ?_, fun a h => by cases h⟩
  · injection h with h; subst h; decide
  · injection h with h; subst h; decide

/-- The first index too many of each space. -/
theorem witness_HostReadChangesNothing_refused : State.reset.cfg.sCap ≤ 1024 ∧ 18 ≤ 18 := by decide

/-- Two reads of the unspecified clock value in a row agree (R67). -/
theorem test_clock_reads_agree (s t u : State) (h : hostMove (.read (.st .clockValue)) s = .next t)
    (h' : hostMove (.read (.st .clockValue)) t = .next u) : u.host.lastRead = t.host.lastRead := by
  cases h; cases h'; rfl

theorem witness_TransmitSequence : exampleState.FencLegal ∧
    ¬State.FencLegal { exampleState with st := { exampleSt with temperature := 15#8 } } :=
  ⟨witness_FencLegal.1, fun h => by
    have := (State.fencLegal_iff _).1 h
    revert this; decide⟩

/-- PDEC fails; PDEC ends `Ok` and FDEC fails; both end `Ok`. -/
theorem witness_ReceiveSequence :
    next (exec .pdec State.reset) (fun u => u.status != 0#8) = true ∧
    next (exec .pdec (withWindow (pulseUnit Config.ref f29a)))
      (fun u => u.status == 0#8 && next (exec .fdec u) (fun v => v.status != 0#8)) = true ∧
    next (exec .pdec (withWindow ux))
      (fun u => u.status == 0#8 && next (exec .fdec u) (fun v => v.status == 0#8)) = true := by
  decide +kernel

theorem witness_TransmitThenReceive : exampleState.FencLegal ∧ exampleState.st.Valid ∧
    1 ≤ exampleState.tol.toNat ∧ exampleState.tol.toNat ≤ Spec.gap exampleState.cfg :=
  ⟨witness_FencLegal.1, exampleState_valid, by decide, by decide⟩

end Sys2Proof.Tests
end

/-!
Proofs of the statements of `00_scope.md`: R2 (TX then RX gives the registers back), R7 (well separated
windows) and R12 (one outcome for every command), with the laws they rest on.
-/

namespace Sys2Proof.Machine

/-! ### Windows of two centres (R7) -/

/-- Two windows of half-width `w` share a duration exactly when their centres are closer than `2*w - 1`; the
midpoint of the centres is then in both. -/
theorem exists_tolMatch_both_iff (z o w : Nat) :
    (∃ v, tolMatch v z w = true ∧ tolMatch v o w = true) ↔ absDiff o z + 1 < 2 * w := by
  simp only [tolMatch_iff, absDiff]
  constructor
  · rintro ⟨v, hz, ho⟩
    omega
  · intro h
    exact ⟨(z + o) / 2, by omega, by omega⟩

/-- Settles O34: the windows are disjoint exactly when they share no duration. -/
theorem wellSeparatedWindowsAreDisjoint : Obligations.WellSeparatedWindowsAreDisjoint := by
  intro z o w hw
  rw [← not_exists, exists_tolMatch_both_iff]
  omega

/-! ### The outcome of a command (R12) -/

/-- Every command answers a next state, and `STATUS` holds the code of `Ok` or of some kind: each end of a
command is a `complete` or a `raise`. -/
theorem exec_completes (i : Instr) (s : State) :
    ∃ t, exec i s = .next t ∧ (t.status = okCode ∨ ∃ k : ErrKind, t.status = k.code) := by
  rcases exec_cases (rfl : exec i s = exec i s) with ⟨-, h⟩ | ⟨-, h⟩ | ⟨-, -, h⟩ | ⟨-, -, h⟩ |
    ⟨-, -, h⟩ | ⟨-, -, h⟩ | ⟨d, -, -, h⟩ | ⟨k, -, -, h⟩ | ⟨-, h⟩ | ⟨f, -, -, h⟩ | ⟨k, -, -, h⟩ <;>
    exact ⟨_, h, by simp⟩

/-- Settles O12: no kind has the code of `Ok`, and different kinds have different codes. -/
theorem everyCommandHasOneOutcome : Obligations.EveryCommandHasOneOutcome := by
  intro i s
  obtain ⟨t, ht, hok | ⟨k, hk⟩⟩ := exec_completes i s
  · exact ⟨t, ht, .inl ⟨hok, fun k hk => code_ne_okCode k (hk.symm.trans hok)⟩⟩
  · refine ⟨t, ht, .inr ⟨fun h0 => code_ne_okCode k (hk.symm.trans h0), k, hk, fun j hj => ?_⟩⟩
    exact code_injective (hj.symm.trans hk)

/-! ### Commands issued by a list of moves (R69, R204) -/

/-- No command reads or writes the host's list of moves. -/
theorem exec_withPending {i : Instr} {s t : State} (h : exec i s = .next t) (ms : List HostMove) :
    exec i (s.withPending ms) = .next (t.withPending ms) := by
  rcases exec_cases h with ⟨rfl, h⟩ | ⟨rfl, h⟩ | ⟨rfl, hc, h⟩ | ⟨rfl, hc, h⟩ |
    ⟨rfl, hc, h⟩ | ⟨rfl, hc, h⟩ | ⟨d, rfl, hc, h⟩ | ⟨k, rfl, hc, h⟩ | ⟨rfl, h⟩ | ⟨f, rfl, hc, h⟩ |
    ⟨k, rfl, hc, h⟩ <;> cases h
  · exact execNop_eq _
  · exact execCkgen_eq _
  · rw [execCkver_eq, State.withPending_frame, if_pos hc]; rfl
  · rw [execCkver_eq, State.withPending_frame, if_neg (by simp [hc])]; rfl
  · exact execFenc_ok (s := s.withPending ms) hc
  · exact execFenc_error (s := s.withPending ms) hc
  · exact execFdec_ok (s := s.withPending ms) hc
  · exact execFdec_error (s := s.withPending ms) hc
  · exact execPenc_eq _
  · exact execPdec_ok (s := s.withPending ms) hc
  · exact execPdec_error (s := s.withPending ms) hc

/-- The step that issues a command. -/
theorem step_command_of_exec {i : Instr} {s t : State} (h : exec i s = .next t) (rest : List HostMove) :
    step (s.withPending (.command (encode i) :: rest)) = .next (t.withPending rest) := by
  rw [step_command_encode, exec_withPending h]

/-- The step that issues a command after the host has read the outcome `Ok` (R108). -/
theorem step_commandIfOk_of_exec {i : Instr} {s t : State} (h0 : s.status = okCode)
    (h : exec i s = .next t) (rest : List HostMove) :
    step (s.withPending (.commandIfOk (encode i) :: rest)) = .next (t.withPending rest) := by
  rw [step_commandIfOk_of_ok (s := s.withPending (.commandIfOk (encode i) :: rest)) rfl h0]
  exact exec_withPending h rest

/-! ### PENC then PDEC (R171) -/

/-- A frame against itself: the arbiter answers what the two halves answer (R167). -/
theorem arbitrate_verifyFrame_self (f : Frame) :
    arbitrate (verifyFrame f) (verifyFrame f) = verifyFrame f := by
  rw [verifyFrame_eq]
  split
  · rw [arbitrate_ok_ok, if_pos rfl]
  · exact arbitrate_checksum_left _

/-- The train of a frame decodes to it exactly when the frame carries its checksum (R171). -/
theorem decodeWindow_pulseTrain_eq_verifyFrame {c : Config} {tol : Nat} (h1 : 1 ≤ tol)
    (h2 : tol ≤ Spec.gap c) (f : Frame) : decodeWindow c tol (pulseTrain c f) = verifyFrame f := by
  rw [decodeWindow_pulseTrain, if_pos (near_self _ (by omega)), decodeUnit_pulseUnit c h1 h2,
    arbitrate_verifyFrame_self]

/-- PDEC of a train just sent from a checksummed frame ends `Ok` and leaves the state as it is: `F` already
holds the frame it recovers. -/
theorem execPdec_afterPenc {s : State} (h1 : 1 ≤ s.tol.toNat) (h2 : s.tol.toNat ≤ Spec.gap s.cfg)
    (hc : checksumOk s.frame = true) : exec .pdec s.afterPenc = .next s.afterPenc := by
  have hw : decodeWindow s.cfg s.tol.toNat s.afterPenc.window = .ok s.frame := by
    rw [window_afterPenc, decodeWindow_pulseTrain_eq_verifyFrame h1 h2, verifyFrame_eq, if_pos hc]
  exact execPdec_ok (s := s.afterPenc) hw

/-! ### FENC then FDEC (R143) -/

/-- The state FENC leaves when its preconditions hold. -/
def State.afterFenc (s : State) : State :=
  (s.setFrame (encodeFrame s.st s.host.wcHour s.host.wcMin)).complete

theorem execFenc_of_legal {s : State} (h : s.FencLegal) : exec .fenc s = .next s.afterFenc :=
  execFenc_ok (s.fencLegal_iff.1 h)

/-- The registers a valid state has after its own frame was decoded (R143): the frame carries no timer
program, and byte 10 is the clock last observed. -/
def OperatingState.received (st : OperatingState) (hour : BitVec 5) (minute : BitVec 6) : OperatingState :=
  { st with timerProgram := .none, lastObservedClock := ⟨true, clockByte st.clockSetting hour minute⟩ }

/-- In a valid state FENC forces only a vane that is already auto (R47, R127). -/
theorem vane_of_valid {st : OperatingState} (h : st.Valid) :
    (if vaneForced st then Vane.auto else st.vane) = st.vane := by
  split
  case isFalse => rfl
  case isTrue hf =>
    simp only [vaneForced, Bool.or_eq_true, Bool.and_eq_true] at hf
    rcases hf with ⟨he, -⟩ | hl
    · exact (h.consistent.econoCool he).2.symm
    · exact (h.consistent.longMode hl).symm

/-- In a valid state FENC emits the econo bit as it stands (R47, R127). -/
theorem econoEmitted_of_valid {st : OperatingState} (h : st.Valid) : econoEmitted st = st.econoCool := by
  cases he : st.econoCool with
  | false => simp [econoEmitted, he]
  | true =>
    have hm : st.mode = .cool := (h.consistent.econoCool he).1
    have hl : st.longMode = false := by
      rw [← Bool.not_eq_true]
      exact fun hl => h.notBoth ⟨he, hl⟩
    simp [econoEmitted, he, hm, hl]

/-- FDEC on the frame of a valid state gives its registers back (R143). -/
theorem execFdec_of_encoded {t : State} {hour : BitVec 5} {minute : BitVec 6} (hv : t.st.Valid)
    (hc : ClockLegal t.st.clockSetting hour minute) (hf : t.frame = encodeFrame t.st hour minute) :
    exec .fdec t = .next (t.setSt (t.st.received hour minute)).complete := by
  have hd := decodeFrame_encodeFrame t.cfg hv.inRange hc
  rw [← hf, vane_of_valid hv, econoEmitted_of_valid hv] at hd
  exact execFdec_ok hd

/-! ### TX then RX (R2) -/

/-- Settles O56: the four commands one after another, then their four steps. -/
theorem transmitThenReceive : Obligations.TransmitThenReceive := by
  intro s hlegal hvalid h1 h2
  have hfenc : exec .fenc s = .next s.afterFenc := execFenc_of_legal hlegal
  have hpenc : exec .penc s.afterFenc = .next s.afterFenc.afterPenc := execPenc_eq_afterPenc _
  have hpdec : exec .pdec s.afterFenc.afterPenc = .next s.afterFenc.afterPenc :=
    execPdec_afterPenc h1 h2 (checksumOk_encodeFrame _ _ _)
  have hfdec := execFdec_of_encoded (t := s.afterFenc.afterPenc) hvalid hlegal.clock rfl
  exact ⟨_, _, _, _, step_command_of_exec hfenc _, step_commandIfOk_of_exec rfl hpenc _,
    step_command_of_exec hpdec _, step_commandIfOk_of_exec rfl hfdec _, rfl, rfl, rfl, rfl⟩

end Sys2Proof.Machine

/-!
Proofs of the statements of `10_state.md`: that every step keeps the invariant (R21, R22, R211), what each
command reads and writes (R48), the host's writes (R22 to R43, R49), reset (R50) and the registers after FDEC
(R47).
-/

namespace Sys2Proof.Machine

/-! ### Each operation keeps the invariant -/

section
variable {s : State}

theorem State.Inv.setFrame (h : s.Inv) (f : Frame) : (s.setFrame f).Inv := { h with }
theorem State.Inv.setSt (h : s.Inv) (st : OperatingState) : (s.setSt st).Inv := { h with }
theorem State.Inv.setTol (h : s.Inv) (v : BitVec 16) : (s.setTol v).Inv := { h with }
theorem State.Inv.setHost (h : s.Inv) (x : HostSide) : (s.setHost x).Inv := { h with }

theorem State.Inv.setStatus (h : s.Inv) {v : Byte} (hv : v ≤ 13#8) : (s.setStatus v).Inv :=
  { h with statusLe := hv }

theorem State.Inv.setSlen (h : s.Inv) {n : Nat} (hn : n ≤ s.cfg.sCap) : (s.setSlen n).Inv :=
  { h with slenLe := hn }

theorem State.Inv.setSamples (h : s.Inv) {m : List SampleCell} (hm : SamplesWf s.cfg.sCap m) :
    (s.setSamples m).Inv :=
  { h with samplesWf := hm }

theorem State.Inv.useDraw (h : s.Inv) : s.useDraw.Inv :=
  { h with drawLt := Nat.lt_succ_of_lt h.drawLt, clockDrawLt := Nat.lt_succ_of_lt h.clockDrawLt }

theorem State.Inv.redrawClock (h : s.Inv) : s.redrawClock.Inv :=
  { h with drawLt := Nat.lt_succ_of_lt h.drawLt, clockDrawLt := Nat.lt_succ_self s.draws }

theorem State.Inv.complete (h : s.Inv) : s.complete.Inv := h.setStatus (by decide)

theorem State.Inv.raise (h : s.Inv) (k : ErrKind) : ∀ d : Destination, (s.raise k d).Inv
  | .nothing => h.setStatus (code_le k)
  | .frame => (h.setFrame _).useDraw.setStatus (code_le k)

theorem State.Inv.withPending (h : s.Inv) (ms : List HostMove) : (s.withPending ms).Inv := h.setHost _

/-- A configuration of HPIR holds a whole train (R8, U9). -/
theorem Config.train_le_sCap {c : Config} (h : c.wf = true) : 583 ≤ c.sCap := by
  simp only [Config.wf, Bool.and_eq_true] at h
  exact of_decide_eq_true h.1

theorem State.Inv.afterPenc (h : s.Inv) : s.afterPenc.Inv := by
  have hcap : 583 ≤ s.cfg.sCap := Config.train_le_sCap h.cfgWf
  have hm : SamplesWf s.cfg.sCap (writeTrain (pulseTrain s.cfg s.frame) s.samples) :=
    writeTrain_wf h.samplesWf (by rwa [pulseTrain_length])
  exact ((h.setSamples hm).setSlen hcap).complete

theorem State.Inv.hostWriteSample (h : s.Inv) {i : Nat} (hi : i < s.cfg.sCap) (v : Sample) :
    (s.hostWriteSample i v).Inv :=
  h.setSamples (insertCell_wf h.samplesWf hi)

theorem State.Inv.hostWriteSlen (h : s.Inv) {n : Nat} (hn : n ≤ s.cfg.sCap) :
    (s.hostWriteSlen n).Inv :=
  ((h.setSamples (map_beyondSlen_wf s.draws n h.samplesWf)).setSlen hn).useDraw

theorem State.Inv.hostWriteSt (h : s.Inv) (w : StWrite) (st : OperatingState) :
    (s.hostWriteSt w st).Inv := by
  rcases hostWriteSt_cases s w st with ⟨-, e⟩ | ⟨-, e⟩ <;> rw [e]
  · exact h.setSt st
  · exact (h.setSt st).redrawClock

theorem State.Inv.hostRead (h : s.Inv) (e : Element) (v : Nat) : (s.hostRead e v).Inv := by
  by_cases he : e = .cmd
  · rw [he, hostRead_cmd]
    exact (h.setHost _).useDraw
  · rw [hostRead_of_ne_cmd s he]
    exact h.setHost _

end

/-- Reset establishes the invariant in every configuration of HPIR (R50). -/
theorem State.resetWith_inv {c : Config} (hc : c.wf = true) (d : Nat) (x : HostSide) :
    (State.resetWith c d x).Inv where
  cfgWf := hc
  samplesWf := ⟨List.Pairwise.nil, fun _ hm => nomatch hm⟩
  slenLe := Nat.zero_le _
  statusLe := show (0#8 : Byte) ≤ 13#8 by decide
  drawLt := Nat.lt_succ_self d
  clockDrawLt := Nat.lt_succ_self d

/-! ### Every step keeps the invariant -/

theorem exec_keeps_inv {i : Instr} {s t : State} (hs : s.Inv) (h : exec i s = .next t) : t.Inv := by
  rcases exec_cases h with ⟨-, h⟩ | ⟨-, h⟩ | ⟨-, -, h⟩ | ⟨-, -, h⟩ | ⟨-, -, h⟩ | ⟨-, -, h⟩ |
    ⟨d, -, -, h⟩ | ⟨k, -, -, h⟩ | ⟨-, h⟩ | ⟨f, -, -, h⟩ | ⟨k, -, -, h⟩ <;> cases h
  · exact hs.complete
  · exact (hs.setFrame _).complete
  · exact hs.complete
  · exact hs.raise _ _
  · exact (hs.setFrame _).complete
  · exact hs.raise _ _
  · exact (hs.setSt _).complete
  · exact hs.raise _ _
  · exact hs.afterPenc
  · exact (hs.setFrame _).complete
  · exact hs.raise _ _

theorem hostMove_keeps_inv {m : HostMove} {s t : State} (hs : s.Inv) (h : hostMove m s = .next t) :
    t.Inv := by
  rcases hostMove_cases h with ⟨i, v, -, hi, rfl⟩ | ⟨n, -, hn, rfl⟩ | ⟨f, rfl⟩ | ⟨w, st, rfl⟩ | ⟨v, rfl⟩ |
    ⟨i, he⟩ | rfl | rfl | ⟨x, rfl⟩ | ⟨e, v, rfl⟩ | rfl
  · exact hs.hostWriteSample hi v
  · exact hs.hostWriteSlen hn
  · exact hs.setFrame f
  · exact hs.hostWriteSt w st
  · exact hs.setTol v
  · exact exec_keeps_inv hs he
  · exact hs.raise _ _
  · exact hs
  · exact hs.setHost x
  · exact hs.hostRead e v
  · exact State.resetWith_inv hs.cfgWf _ _

/-- Settles O4: a step idles or makes a move of the host, and every move keeps the invariant. -/
theorem stepKeepsInvariant : Obligations.StepKeepsInvariant := by
  intro s t hs h
  cases hp : s.host.pending with
  | nil =>
    rw [step_nil hp] at h
    cases h
    exact hs
  | cons m rest =>
    rw [step_cons hp] at h
    exact hostMove_keeps_inv (hs.withPending rest) h

/-! ### What a command writes (R48) -/

@[simp] theorem State.raise_sample (s : State) (k : ErrKind) (d : Destination) (a : Nat) :
    (s.raise k d).sample a = s.sample a := by
  cases d <;> exact State.sample_congr rfl rfl a

@[simp] theorem commit_clockSetting (st : OperatingState) (d : Decoded) :
    (commit st d).clockSetting = st.clockSetting := rfl

theorem frameByte_withChecksum_of_lt (f : Frame) {b : Nat} (h : b < 17) :
    frameByte (withChecksum f) b = frameByte f b := by
  rw [frameByte_withChecksum, if_neg (by omega)]

/-- Settles O16: the elements each of the ends of a command writes, by the lemmas of the operations it is
made of. -/
theorem commandsWriteOnlyTheirDestinations : Obligations.CommandsWriteOnlyTheirDestinations := by
  intro i s t h
  rcases exec_cases h with ⟨rfl, h⟩ | ⟨rfl, h⟩ | ⟨rfl, -, h⟩ | ⟨rfl, -, h⟩ | ⟨rfl, -, h⟩ | ⟨rfl, -, h⟩ |
    ⟨d, rfl, -, h⟩ | ⟨k, rfl, -, h⟩ | ⟨rfl, h⟩ | ⟨f, rfl, -, h⟩ | ⟨k, rfl, -, h⟩ <;> cases h
  · simp
  · simpa using fun b hb => frameByte_withChecksum_of_lt s.frame hb
  · simp
  · simp
  · simp
  · simp
  · simp
  · simp
  · exact ⟨rfl, rfl, rfl, rfl, rfl, nofun, fun _ _ ha => sample_afterPenc_beyond s ha, fun _ => rfl,
      fun _ _ _ => rfl, nofun⟩
  · simp
  · simp

/-! ### What a command reads (R21, R42, R48) -/

/-- PDEC answers by its window, the tolerance and the configuration alone. -/
theorem execPdec_congr {s t : State} (hcfg : s.cfg = t.cfg) (htol : s.tol = t.tol)
    (hw : s.window = t.window) :
    ∃ s' t', exec .pdec s = .next s' ∧ exec .pdec t = .next t' ∧ s'.status = t'.status ∧
      (s'.status = okCode → s'.frame = t'.frame) := by
  have hd : decodeWindow t.cfg t.tol.toNat t.window = decodeWindow s.cfg s.tol.toNat s.window := by
    rw [hcfg, htol, hw]
  cases h : decodeWindow s.cfg s.tol.toNat s.window with
  | ok f => exact ⟨_, _, execPdec_ok h, execPdec_ok (hd.trans h), rfl, fun _ => rfl⟩
  | error k =>
    exact ⟨_, _, execPdec_error h, execPdec_error (hd.trans h), rfl,
      fun h0 => absurd h0 (code_ne_okCode k)⟩

/-- Settles O47: samples below `SLEN` that agree are the same window. -/
theorem pdecReadsOnlyTheWindow : Obligations.PdecReadsOnlyTheWindow := by
  intro s t hcfg htol hslen hsample
  exact execPdec_congr hcfg htol (window_congr hslen hsample)

/-- CKVER answers by `F` alone. -/
theorem execCkver_congr {s t : State} (hf : s.frame = t.frame) :
    ∃ s' t', exec .ckver s = .next s' ∧ exec .ckver t = .next t' ∧ s'.status = t'.status ∧
      s'.frame = t'.frame := by
  refine ⟨_, _, execCkver_eq s, execCkver_eq t, ?_⟩
  rw [← hf]
  split <;> exact ⟨rfl, hf⟩

/-- FDEC answers by `F` and the configuration alone, and writes every register but `ST.clockSetting`. -/
theorem execFdec_congr {s t : State} (hcfg : s.cfg = t.cfg) (hf : s.frame = t.frame) :
    ∃ s' t', exec .fdec s = .next s' ∧ exec .fdec t = .next t' ∧ s'.status = t'.status ∧
      s'.frame = t'.frame ∧
      (s'.status = okCode → s'.st = { t'.st with clockSetting := s.st.clockSetting }) := by
  have hd : decodeFrame t.cfg t.frame = decodeFrame s.cfg s.frame := by rw [hcfg, hf]
  cases h : decodeFrame s.cfg s.frame with
  | ok d => exact ⟨_, _, execFdec_ok h, execFdec_ok (hd.trans h), rfl, hf, fun _ => rfl⟩
  | error k =>
    exact ⟨_, _, execFdec_error h, execFdec_error (hd.trans h), rfl, hf,
      fun h0 => absurd h0 (code_ne_okCode k)⟩

/-- The train PENC writes is that of `F` in the configuration. -/
theorem sample_afterPenc_congr {s t : State} (hcfg : s.cfg = t.cfg) (hf : s.frame = t.frame) {a : Nat}
    (ha : a < 583) : s.afterPenc.sample a = t.afterPenc.sample a := by
  rw [sample_afterPenc s ha, sample_afterPenc t ha, hcfg, hf]

/-- Settles O48: one lemma for each of the four commands. -/
theorem frameCommandsReadOnlyTheFrame : Obligations.FrameCommandsReadOnlyTheFrame := by
  rintro s t hcfg hf i (rfl | rfl | rfl | rfl)
  · exact ⟨_, _, execCkgen_eq s, execCkgen_eq t, rfl, congrArg withChecksum hf, nofun, nofun⟩
  · obtain ⟨s', t', hs, ht, hstatus, hframe⟩ := execCkver_congr hf
    exact ⟨s', t', hs, ht, hstatus, hframe, nofun, nofun⟩
  · obtain ⟨s', t', hs, ht, hstatus, hframe, hst⟩ := execFdec_congr hcfg hf
    exact ⟨s', t', hs, ht, hstatus, hframe, fun _ => hst, nofun⟩
  · exact ⟨_, _, execPenc_eq_afterPenc s, execPenc_eq_afterPenc t, rfl, hf, nofun,
      fun _ _ ha => sample_afterPenc_congr hcfg hf ha⟩

/-- Settles O15: every command overwrites `STATUS` and looks at other elements only. -/
theorem statusIsNeverRead : Obligations.StatusIsNeverRead := by
  intro i s x
  cases i with
  | nop => rfl
  | ckgen => rfl
  | ckver => rfl
  | fenc => rfl
  | fdec => rfl
  | penc => rfl
  | pdec => rfl

/-! ### The registers after FDEC (R47) -/

/-- The registers FDEC commits passed its checks: they are in range and consistent. -/
theorem commit_consistent {c : Config} {f : Frame} {d : Decoded} (h : decodeFrame c f = .ok d)
    (st : OperatingState) :
    (commit st d).InRange ∧ (commit st d).Consistent ∧ d.clock.toNat ≤ 143 := by
  obtain ⟨-, -, -, -, htemperature, -, hvane, hclock, hend, hstart, -, hecono, hlong, -⟩ :=
    decodeFrame_eq_ok h
  exact ⟨⟨checkTemperature_range htemperature, checkVane_range hvane, (checkTime_range hend).2,
    (checkTime_range hstart).2⟩, ⟨checkEcono_consistent hecono, checkLong_consistent hlong⟩,
    (checkTime_range hclock).2⟩

/-- Settles O28: FDEC ends `Ok` only by the commit of a decoded frame. -/
theorem fdecSuccessIsConsistent : Obligations.FdecSuccessIsConsistent := by
  intro s t h h0
  cases hd : decodeFrame s.cfg s.frame with
  | error k =>
    rw [execFdec_error hd] at h
    cases h
    exact absurd h0 (code_ne_okCode k)
  | ok d =>
    rw [execFdec_ok hd] at h
    cases h
    obtain ⟨hrange, hconsistent, hclock⟩ := commit_consistent hd s.st
    exact ⟨hrange, hconsistent, rfl, hclock⟩

/-! ### Reset (R50) -/

/-- Settles O1: `State.reset` is one of the reset states, and each element is read off their definition. -/
theorem resetStateIsAsSpecified : Obligations.ResetStateIsAsSpecified := by
  intro s h
  have hreset : ∃ c d x, s = State.resetWith c d x := h.elim (fun h => ⟨_, _, _, h⟩) id
  obtain ⟨c, d, x, rfl⟩ := hreset
  simp [State.resetWith, OperatingState.reset]

theorem OperatingState.reset_valid (d : Nat) : (OperatingState.reset d).Valid where
  inRange := ⟨by simp [OperatingState.reset], by simp [OperatingState.reset],
    by simp [OperatingState.reset], by simp [OperatingState.reset]⟩
  clock := nofun
  observed := nofun
  consistent := ⟨nofun, nofun⟩
  notBoth := fun h => nomatch h.1

/-- Settles O3: `State.reset` is the reset state of the reference configuration. -/
theorem resetMeetsInvariant : Obligations.ResetMeetsInvariant :=
  ⟨State.resetWith_inv (by decide) _ _, fun _ d x hc =>
    ⟨State.resetWith_inv hc d x, OperatingState.reset_valid d⟩⟩

/-- Settles O6, by the law of the step with no move left. -/
theorem idleStepKeepsState : Obligations.IdleStepKeepsState := fun _ h => step_nil h

/-! ### The host's writes of registers (R24 to R43, R49) -/

theorem hostMove_writeSt_ok {s : State} {w : StWrite} {st : OperatingState} (h : s.st.write w = .ok st) :
    hostMove (.writeSt w) s = .next (s.hostWriteSt w st) := by
  simp only [hostMove, h]

theorem hostMove_writeSt_error {s : State} {w : StWrite} {r : Refusal} (h : s.st.write w = .error r) :
    hostMove (.writeSt w) s = .refused r := by
  simp only [hostMove, h]

theorem hostMove_writeSt_of_not_clock {s : State} {w : StWrite} {st : OperatingState}
    (h : s.st.write w = .ok st) (hc : w.isClock = false) :
    hostMove (.writeSt w) s = .next (s.setSt st) := by
  rw [hostMove_writeSt_ok h, State.hostWriteSt, hc]

theorem hostMove_writeSt_of_clock {s : State} {w : StWrite} {st : OperatingState}
    (h : s.st.write w = .ok st) (hc : w.isClock = true) :
    hostMove (.writeSt w) s = .next (s.setSt st).redrawClock := by
  rw [hostMove_writeSt_ok h, State.hostWriteSt, hc]

/-! An index is looked up as a position in R49's table; the position 7 is in none of them. -/

theorem lookup_modeIndex (i : BitVec 2) : lookup modeKeys modeIndex i = modeKeys[i.toNat]? := by
  revert i; decide

theorem lookup_timerProgramIndex (i : BitVec 2) :
    lookup timerProgramKeys timerProgramIndex i = timerProgramKeys[i.toNat]? := by
  revert i; decide

theorem lookup_wideVaneIndex (i : BitVec 3) :
    lookup wideVaneKeys wideVaneIndex i = wideVaneKeys[i.toNat]? := by
  revert i; decide

theorem lookup_vaneIndex (i : BitVec 3) : lookup vaneKeys vaneIndex i = vaneKeys[i.toNat]? := by
  revert i; decide

section
variable (st : OperatingState)

theorem write_mode {i : BitVec 2} {m : Mode} (h : modeKeys[i.toNat]? = some m) :
    st.write (.mode i) = .ok { st with mode := m } := by
  simp only [OperatingState.write, lookup_modeIndex, h]

theorem write_timerProgram {i : BitVec 2} {p : TimerProgram} (h : timerProgramKeys[i.toNat]? = some p) :
    st.write (.timerProgram i) = .ok { st with timerProgram := p } := by
  simp only [OperatingState.write, lookup_timerProgramIndex, h]

theorem write_wideVane {i : BitVec 3} {v : WideVane} (h : wideVaneKeys[i.toNat]? = some v) :
    st.write (.wideVane i) = .ok { st with wideVane := v } := by
  simp only [OperatingState.write, lookup_wideVaneIndex, h]

theorem write_wideVane_reserved {i : BitVec 3} (h : wideVaneKeys[i.toNat]? = none) :
    st.write (.wideVane i) = .error .reservedIndex := by
  simp only [OperatingState.write, lookup_wideVaneIndex, h]

theorem write_vane {i : BitVec 3} {v : Vane} (h : vaneKeys[i.toNat]? = some v) :
    st.write (.vane i) = .ok { st with vane := v } := by
  simp only [OperatingState.write, lookup_vaneIndex, h]

theorem write_vane_reserved {i : BitVec 3} (h : vaneKeys[i.toNat]? = none) :
    st.write (.vane i) = .error .reservedIndex := by
  simp only [OperatingState.write, lookup_vaneIndex, h]

end

/-- Settles O49: an index below the length of its register's table writes the element there, and one that is
not, which only 7 can be, is refused. -/
theorem hostEnumerationWrites : Obligations.HostEnumerationWrites := by
  refine fun s => ⟨fun i => ?_, fun i => ?_, fun i => ⟨fun h7 => ?_, fun h7 => ?_⟩,
    fun i => ⟨fun h7 => ?_, fun h7 => ?_⟩⟩
  · have hi := List.getElem?_eq_getElem (l := modeKeys) i.isLt
    exact ⟨_, hi, hostMove_writeSt_ok (write_mode _ hi)⟩
  · have hi := List.getElem?_eq_getElem (l := timerProgramKeys) i.isLt
    exact ⟨_, hi, hostMove_writeSt_ok (write_timerProgram _ hi)⟩
  · exact hostMove_writeSt_error (write_wideVane_reserved _ (by rw [h7]; rfl))
  · have hlt : i.toNat < 7 := by omega
    have hi := List.getElem?_eq_getElem (l := wideVaneKeys) hlt
    exact ⟨_, hi, hostMove_writeSt_ok (write_wideVane _ hi)⟩
  · exact hostMove_writeSt_error (write_vane_reserved _ (by rw [h7]; rfl))
  · have hlt : i.toNat < 7 := by omega
    have hi := List.getElem?_eq_getElem (l := vaneKeys) hlt
    exact ⟨_, hi, hostMove_writeSt_ok (write_vane _ hi)⟩

/-- Settles O50: each write is `OperatingState.write` of its field, and the two of `ST.clockSetting` also draw
anew what a read of it returns. -/
theorem hostRegisterWrites : Obligations.HostRegisterWrites := by
  intro s b v t hour minute
  have hother : ∀ {w st}, s.st.write w = .ok st → w.isClock = false →
      hostMove (.writeSt w) s = .next (s.setSt st) := hostMove_writeSt_of_not_clock
  exact ⟨hother rfl rfl, hother rfl rfl, hother rfl rfl, hother rfl rfl,
    ⟨_, _, hostMove_writeSt_of_clock (w := .clockAuto b) rfl rfl⟩,
    ⟨_, _, hostMove_writeSt_of_clock (w := .clockValue v) rfl rfl⟩,
    hother rfl rfl, hother rfl rfl, hother rfl rfl, hother rfl rfl, hother rfl rfl, hother rfl rfl, rfl, rfl,
    hostMove_writeSt_error rfl, hostMove_writeSt_error rfl, rfl⟩

/-! ### The host's writes of `SLEN`, of a sample and of a frame byte (R21 to R23, R60) -/

/-- A write of `SLEN` leaves alone every element the host wrote last (U2). -/
theorem sample_setSamples_beyondSlen_byHost (s : State) (draw n : Nat) {a : Nat} {c : SampleCell}
    (hc : findCell s.samples a = some c) (hhost : c.byHost = true) :
    (s.setSamples (s.samples.map (beyondSlen draw n))).sample a = s.sample a := by
  have hkept : beyondSlen draw n c = c := by simp [beyondSlen, hhost]
  simp [State.sample, findCell_map_beyondSlen, hc, hkept]

theorem sample_hostWriteSlen (s : State) (n a : Nat) :
    (s.hostWriteSlen n).sample a = (s.setSamples (s.samples.map (beyondSlen s.draws n))).sample a :=
  State.sample_congr rfl rfl a

/-- Settles O51: the cells below the new length and those the host wrote pass through `beyondSlen`
unchanged. -/
theorem hostSlenWrite : Obligations.HostSlenWrite := by
  intro s n
  constructor
  · intro h
    exact if_neg (Nat.not_le.2 h)
  · intro h
    refine ⟨s.hostWriteSlen n, if_pos h, rfl, fun a ha => ?_, fun a c hc hhost => ?_⟩
    · rw [sample_hostWriteSlen, sample_setSamples_beyondSlen s _ n a ha]
    · rw [sample_hostWriteSlen, sample_setSamples_beyondSlen_byHost s _ n hc hhost]

theorem sample_hostWriteSample (s : State) (i : Nat) (v : Sample) (a : Nat) :
    (s.hostWriteSample i v).sample a = if i = a then v else s.sample a :=
  sample_setSamples_insertCell s _ a

theorem frameByte_set (f : Frame) {i : Nat} (h : i < 18) (v : Byte) (b : Nat) :
    frameByte (f.set i v h) b = if i = b then v else frameByte f b := by
  by_cases hb : b < 18
  · rw [frameByte_eq _ _ hb, frameByte_eq _ _ hb, Vector.getElem_set]
  · rw [if_neg (by omega)]
    simp [frameByte, List.getD_eq_getElem?_getD, hb]

/-- Settles O52: read after write, for a sample and for a frame byte. -/
theorem hostElementWrites : Obligations.HostElementWrites := by
  refine fun s a => ⟨fun v ha => ?_, fun v ha => if_neg (Nat.not_lt.2 ha), fun v ha => ?_,
    fun v ha => dif_neg (Nat.not_lt.2 ha)⟩
  · refine ⟨s.hostWriteSample a v, if_pos ha, rfl, ?_, fun b hb => ?_⟩
    · rw [sample_hostWriteSample, if_pos rfl]
    · rw [sample_hostWriteSample, if_neg hb.symm]
  · refine ⟨s.setFrame (s.frame.set a v ha), dif_pos ha, rfl, ?_, fun b hb => ?_⟩
    · rw [State.setFrame_frame, frameByte_set, if_pos rfl]
    · rw [State.setFrame_frame, frameByte_set, if_neg hb.symm]

end Sys2Proof.Machine

/-!
Proofs of the statements of `20_memory.md`: what a host read returns and leaves unchanged (R60, R67), and the
step as the host's next move (R69).
-/

namespace Sys2Proof.Machine

/-! ### The value of an element (R48, R49, R60) -/

/-! An enumeration stands in R49's table at its own index. -/

theorem getElem?_modeIndex (m : Mode) : modeKeys[(modeIndex m).toNat]? = some m := by
  cases m <;> rfl

theorem getElem?_wideVaneIndex (v : WideVane) : wideVaneKeys[(wideVaneIndex v).toNat]? = some v := by
  cases v <;> rfl

theorem getElem?_vaneIndex (v : Vane) : vaneKeys[(vaneIndex v).toNat]? = some v := by
  cases v <;> rfl

theorem getElem?_timerProgramIndex (p : TimerProgram) :
    timerProgramKeys[(timerProgramIndex p).toNat]? = some p := by
  cases p <;> rfl

/-- The host reads each ST field as the spec says. -/
theorem stReads_readSt (s : State) (f : StField) : Spec.stReads s.st (s.readSt f) f := by
  have hflag : ∀ b : Bool, b.toNat = if b = true then 1 else 0 := by decide
  cases f with
  | on => exact hflag _
  | mode => exact getElem?_modeIndex _
  | isee => exact hflag _
  | temperature => rfl
  | wideVane => exact getElem?_wideVaneIndex _
  | fanSpeed => rfl
  | vane => exact getElem?_vaneIndex _
  | clockAuto => exact hflag _
  | clockValue =>
    intro h
    rw [State.readSt, h]
  | lastObservedValid => exact hflag _
  | lastObservedValue => exact fun _ => rfl
  | timerEndTime => rfl
  | timerStartTime => rfl
  | timerProgram => exact getElem?_timerProgramIndex _
  | econoCool => exact hflag _
  | longMode => exact hflag _
  | cleanMode => exact hflag _
  | plasma => exact hflag _

section
variable {s : State}

theorem readElement_sample {a : Nat} (h : a < s.cfg.sCap) :
    s.readElement (.sample a) = .ok (s.sample a).toNat := if_pos h

theorem readElement_sample_beyond {a : Nat} (h : s.cfg.sCap ≤ a) :
    s.readElement (.sample a) = .error .noSuchElement := if_neg (Nat.not_lt.2 h)

theorem readElement_frame {a : Nat} (h : a < 18) :
    s.readElement (.frame a) = .ok (frameByte s.frame a).toNat := if_pos h

theorem readElement_frame_beyond {a : Nat} (h : 18 ≤ a) :
    s.readElement (.frame a) = .error .noSuchElement := if_neg (Nat.not_lt.2 h)

/-- An element inside its space has a value (R60). -/
theorem exists_readElement {e : Element} (hsample : ∀ a, e = .sample a → a < s.cfg.sCap)
    (hframe : ∀ a, e = .frame a → a < 18) : ∃ v, s.readElement e = .ok v := by
  cases e with
  | sample a => exact ⟨_, readElement_sample (hsample a rfl)⟩
  | slen => exact ⟨_, rfl⟩
  | frame a => exact ⟨_, readElement_frame (hframe a rfl)⟩
  | st f => exact ⟨_, rfl⟩
  | tol => exact ⟨_, rfl⟩
  | cmd => exact ⟨_, rfl⟩
  | status => exact ⟨_, rfl⟩

/-! ### A host read (R67) -/

theorem hostMove_read_ok {e : Element} {v : Nat} (h : s.readElement e = .ok v) :
    hostMove (.read e) s = .next (s.hostRead e v) := by
  simp only [hostMove, h]

theorem hostMove_read_error {e : Element} {r : Refusal} (h : s.readElement e = .error r) :
    hostMove (.read e) s = .refused r := by
  simp only [hostMove, h]

end

theorem hostRead_host (s : State) (e : Element) (v : Nat) :
    (s.hostRead e v).host = { s.host with lastRead := some v } := by
  cases e <;> rfl

/-- A read changes the host's side and the counter of draws only. -/
theorem hostRead_frame (s : State) (e : Element) (v : Nat) :
    s.hostRead e v =
      { s with host := (s.hostRead e v).host, draws := (s.hostRead e v).draws } := by
  cases e <;> rfl

theorem hostRead_draws {e : Element} (h : e ≠ .cmd) (s : State) (v : Nat) :
    (s.hostRead e v).draws = s.draws := by
  rw [hostRead_of_ne_cmd s h]; rfl

/-- A second read of anything but `CMD` finds the same value and leaves the same state. -/
theorem hostMove_read_hostRead {s : State} {e : Element} {v : Nat} (h : e ≠ .cmd)
    (hv : s.readElement e = .ok v) : hostMove (.read e) (s.hostRead e v) = .next (s.hostRead e v) := by
  rw [hostRead_of_ne_cmd s h, hostMove_read_ok ((readElement_setHost s _ e).trans hv),
    hostRead_of_ne_cmd _ h]
  rfl

/-- Settles O53: the element has one value, and the read stores it in the host's side. -/
theorem hostReadChangesNothing : Obligations.HostReadChangesNothing := by
  refine fun s => ⟨fun e hsample hframe => ?_,
    fun a ha => hostMove_read_error (readElement_sample_beyond ha),
    fun a ha => hostMove_read_error (readElement_frame_beyond ha)⟩
  obtain ⟨v, hv⟩ := exists_readElement hsample hframe
  have hvalue : ∀ {e' n}, e = e' → s.readElement e' = .ok n → v = n := by
    rintro _ n rfl hn
    exact Except.ok.inj (hv.symm.trans hn)
  refine ⟨v, s.hostRead e v, hostMove_read_ok hv, hostRead_host s e v, hostRead_frame s e v,
    fun hcmd => ⟨hostRead_draws hcmd s v, hostMove_read_hostRead hcmd hv⟩,
    fun a he => hvalue he (readElement_sample (hsample a he)),
    fun a he => hvalue he (readElement_frame (hframe a he)), fun f he => ?_,
    fun he => hvalue he rfl, fun he => hvalue he rfl, fun he => hvalue he rfl⟩
  rw [hvalue he rfl]
  exact stReads_readSt s f

/-! ### The step as the host's next move (R69, R204) -/

theorem hostMove_command (w : Byte) (s : State) : hostMove (.command w) s = issue w s := rfl

theorem hostMove_commandIfOk (w : Byte) (s : State) :
    hostMove (.commandIfOk w) s = if s.status = okCode then issue w s else .next s := rfl

/-- Settles O57, by the law of the step and the two moves that write `CMD`. -/
theorem stepMakesNextMove : Obligations.StepMakesNextMove := by
  refine fun s m rest h => ⟨step_cons h, ?_, ?_⟩
  · rintro w rfl
    rw [step_cons h, hostMove_command]
    rfl
  · rintro w rfl
    rw [step_cons h, hostMove_commandIfOk]
    exact ⟨fun h0 => if_pos h0, fun h0 => if_neg h0⟩

end Sys2Proof.Machine

/-!
Proofs of the statements of `30_encoding.md`: the decoder against the encoder (R80, R81) and the reserved words
(R82, R201).
-/

namespace Sys2Proof.Machine

/-! ### The decoder and its table (R80 to R82) -/

theorem encode_of_mem_opcodeTable : ∀ row ∈ opcodeTable, encode row.2 = row.1 := by decide

/-- The words of the table are 0x00 to 0x06, with no gap (R82). -/
theorem mem_opcodeTable_words_iff (w : Byte) : w ∈ opcodeTable.map Prod.fst ↔ w.toNat ≤ 6 := by
  simp only [opcodeTable, List.map_cons, List.map_nil, List.mem_cons, List.not_mem_nil, or_false]
  bv_omega

/-- The row the decoder finds is a row of the table with that word. -/
theorem encode_of_decode {w : Byte} {i : Instr} (h : decode w = .ok i) : encode i = w := by
  unfold decode at h
  split at h
  case h_1 row hrow =>
    cases h
    have hword : row.1 = w := by simpa using List.find?_some hrow
    rw [encode_of_mem_opcodeTable row (List.mem_of_find?_eq_some hrow), hword]
  case h_2 => cases h

theorem decode_eq_ok_iff {w : Byte} {i : Instr} : decode w = .ok i ↔ encode i = w :=
  ⟨encode_of_decode, fun h => h ▸ decode_encode i⟩

theorem exists_decode_eq_ok_iff (w : Byte) : (∃ i, decode w = .ok i) ↔ w.toNat ≤ 6 := by
  constructor
  · rintro ⟨i, hi⟩
    by_contra h
    rw [decode_reserved (not_le.mp h)] at hi
    cases hi
  · intro h
    obtain ⟨row, hrow, rfl⟩ := List.mem_map.mp ((mem_opcodeTable_words_iff w).mpr h)
    exact ⟨row.2, decode_eq_ok_iff.mpr (encode_of_mem_opcodeTable row hrow)⟩

/-! ### A reserved word (R82, R201) -/

theorem issue_reserved {w : Byte} (h : 6 < w.toNat) (s : State) :
    issue w s = .next (s.raise .illegalCommand .nothing) :=
  issue_error (decode_reserved h) s

/-- Settles O10: `State.raise` with nothing to write is a write of `STATUS`, and the step issues the word in the
state without the move. -/
theorem reservedWordIsIllegalCommand : Obligations.ReservedWordIsIllegalCommand := by
  refine fun s w h => ⟨issue_reserved h s, fun rest => ?_⟩
  rw [step_cons (m := .command w) (rest := rest) rfl, hostMove_command, issue_reserved h]
  rfl

/-! ### The decoder on every byte (R80, R81) -/

/-- Settles O7: the seven words are the encoder's, the other three are above 0x06. -/
theorem commandWordsDecode : Obligations.CommandWordsDecode :=
  ⟨decode_encode .nop, decode_encode .ckgen, decode_encode .ckver, decode_encode .fenc,
    decode_encode .fdec, decode_encode .penc, decode_encode .pdec, decode_reserved (by decide),
    decode_reserved (by decide), decode_reserved (by decide)⟩

/-- Settles O8: the encoder inverts the decoder by the rows of the table, and the decoder the encoder. -/
theorem decodeEncodeAgree : Obligations.DecodeEncodeAgree := fun _ _ => decode_eq_ok_iff

/-- Settles O9: both sides say that the byte is at most 6. -/
theorem decoderAcceptsLegalWords : Obligations.DecoderAcceptsLegalWords := by
  intro w
  rw [exists_decode_eq_ok_iff]
  omega

end Sys2Proof.Machine

/-!
Proofs of the statements of `40_frame_codec.md`, sections 1, 2 and 4: the checksum with CKGEN and CKVER (R120 to
R122), FENC (R123 to R127), and FDEC after FENC (R143).
-/

namespace Sys2Proof.Machine

/-! ### The checksum (R120) -/

/-- The truncated sum as the statements write it (R120). -/
theorem cksum_eq_cksumOf (f : Frame) : cksum f = Spec.cksumOf (frameByte f) := cksum_eq f

/-- Adding modulo 256 at every step gives the sum truncated once (R120). -/
theorem foldl_add_eq_ofNat_sum (F : Nat → Byte) (n : Nat) :
    (List.range n).foldl (fun acc i => acc + F i) 0#8 =
      BitVec.ofNat 8 (∑ i ∈ Finset.range n, (F i).toNat) := by
  induction n with
  | zero => rfl
  | succ n ih => simp [List.range_succ, Finset.sum_range_succ, ih, BitVec.ofNat_add]

/-- Seventeen bytes add up to at most `17 * 255` (R120). -/
theorem byteSum_le (F : Nat → Byte) : Spec.byteSum F ≤ 4335 := by
  have hbyte : ∀ i ∈ Finset.range 17, (F i).toNat ≤ 255 := fun i _ => by have := (F i).isLt; omega
  simpa [Spec.byteSum] using Finset.sum_le_card_nsmul _ _ _ hbyte

/-- Settles O20: the sum once truncated and the sum modulo 256 agree by induction on the number of bytes. -/
theorem checksumIsTruncatedSum : Obligations.ChecksumIsTruncatedSum := fun f =>
  ⟨cksum_eq f, byteSum_le _, (cksum_eq f).trans (foldl_add_eq_ofNat_sum _ 17).symm, cksum_set17 f⟩

/-! ### CKGEN and CKVER (R121, R122) -/

/-- Settles O18: CKGEN's frame is `F` with its checksum in byte 17. -/
theorem ckgenWritesChecksum : Obligations.CkgenWritesChecksum := by
  intro s
  rw [execCkgen_eq, withChecksum, cksum_eq_cksumOf]
  rfl

/-- Settles O19: the test CKVER makes is the comparison of byte 17 with the truncated sum. -/
theorem ckverComparesChecksum : Obligations.CkverComparesChecksum := by
  intro s
  rw [execCkver_eq]
  by_cases h : frameByte s.frame 17 = cksum s.frame
  · rw [if_pos ((checksumOk_iff _).2 h), if_neg (not_not.2 (h.trans (cksum_eq_cksumOf _)))]
    rfl
  · rw [if_neg (mt (checksumOk_iff _).1 h), if_pos (fun h' => h (h'.trans (cksum_eq_cksumOf _).symm))]
    rfl

/-- Settles O21: the frame CKGEN leaves carries its checksum, so CKVER completes in a state that has already
`STATUS` 0. -/
theorem ckverAcceptsAfterCkgen : Obligations.CkverAcceptsAfterCkgen := by
  intro s
  have hsum : frameByte (withChecksum s.frame) 17 = cksum s.frame := by
    rw [frameByte_withChecksum, if_pos rfl]
  refine ⟨_, execCkgen_eq s, rfl, hsum.trans (cksum_eq _), hsum.trans ?_, ?_⟩
  · exact (cksum_withChecksum _).symm.trans (cksum_eq _)
  · rw [execCkver_eq]
    exact congrArg _ (if_pos (checksumOk_withChecksum _))

/-! ### FENC's preconditions (R123, R126) -/

/-- FENC's preconditions fail exactly when a value is outside its range (R123). -/
theorem State.not_fencLegal_iff (s : State) : ¬s.FencLegal ↔
    s.st.temperature.toNat < 16 ∨ 31 < s.st.temperature.toNat ∨ 3 < s.st.fanSpeed.toNat ∨
    (s.st.clockSetting.auto = false ∧ 143 < s.st.clockSetting.value.toNat) ∨
    (s.st.clockSetting.auto = true ∧ (23 < s.host.wcHour.toNat ∨ 59 < s.host.wcMin.toNat)) ∨
    143 < s.st.timerEndTime.toNat ∨ 143 < s.st.timerStartTime.toNat := by
  rw [not_iff_comm]
  simp only [not_or, not_and, not_lt]
  constructor
  · rintro ⟨hlow, hhigh, hfan, hvalue, hwall, hend, hstart⟩
    exact ⟨⟨⟨hlow, hhigh⟩, hfan, hend, hstart⟩, ⟨hvalue, hwall⟩⟩
  · rintro ⟨⟨⟨hlow, hhigh⟩, hfan, hend, hstart⟩, ⟨hvalue, hwall⟩⟩
    exact ⟨hlow, hhigh, hfan, hvalue, hwall, hend, hstart⟩

theorem execFenc_of_not_legal {s : State} (h : ¬s.FencLegal) :
    exec .fenc s = .next (s.raise .preconditionViolation .frame) :=
  execFenc_error (Bool.eq_false_iff.2 (mt s.fencLegal_iff.2 h))

/-- Settles O22: the range tests are the negation of the preconditions, and FENC has one end for each. -/
theorem fencChecksPreconditions : Obligations.FencChecksPreconditions := by
  intro s
  dsimp only
  rw [← s.not_fencLegal_iff]
  exact ⟨fun h => ⟨_, _, execFenc_of_not_legal h⟩, fun h => ⟨_, execFenc_of_legal (not_not.1 h)⟩⟩

/-! ### The bytes FENC computes (R124) -/

section
variable (st : OperatingState) (hour : BitVec 5) (minute : BitVec 6)

theorem frameByte_encodeFrame_mode : frameByte (encodeFrame st hour minute) 6 =
    modeCode st.mode ||| flagCode 0x40#8 st.isee :=
  frameByte_encodeFrame _ _ _ 6 (by omega)

theorem frameByte_encodeFrame_vane : frameByte (encodeFrame st hour minute) 9 =
    st.fanSpeed ||| vaneCode (if vaneForced st then .auto else st.vane) :=
  frameByte_encodeFrame _ _ _ 9 (by omega)

theorem frameByte_encodeFrame_clock : frameByte (encodeFrame st hour minute) 10 =
    clockByte st.clockSetting hour minute :=
  frameByte_encodeFrame _ _ _ 10 (by omega)

theorem frameByte_encodeFrame_econo : frameByte (encodeFrame st hour minute) 14 =
    flagCode 0x20#8 (econoEmitted st) ||| flagCode 0x04#8 st.cleanMode :=
  frameByte_encodeFrame _ _ _ 14 (by omega)

theorem frameByte_encodeFrame_long : frameByte (encodeFrame st hour minute) 15 =
    flagCode 0x10#8 st.longMode ||| flagCode 0x04#8 st.plasma :=
  frameByte_encodeFrame _ _ _ 15 (by omega)

/-- The checksum byte is that of the whole encoded frame (R100, R124). -/
theorem frameByte_encodeFrame_checksum : frameByte (encodeFrame st hour minute) 17 =
    Spec.cksumOf (frameByte (encodeFrame st hour minute)) := by
  rw [← cksum_eq_cksumOf]
  exact (checksumOk_iff _).1 (checksumOk_encodeFrame _ _ _)

end

theorem flagCode_eq (code : Byte) (b : Bool) : flagCode code b = if b = true then code else 0x00#8 := by
  cases b <;> rfl

theorem vaneForced_iff (st : OperatingState) :
    vaneForced st = true ↔ (st.econoCool = true ∧ st.mode = .cool) ∨ st.longMode = true := by
  simp [vaneForced]

theorem econoEmitted_iff (st : OperatingState) :
    econoEmitted st = true ↔ st.econoCool = true ∧ st.mode = .cool ∧ st.longMode = false := by
  simp [econoEmitted, and_assoc]

theorem mode2Code_eq_mode2Of (m : Mode) : mode2Code m = Spec.mode2Of m := by cases m <;> rfl

/-- Settles O23: each byte is that of `encodeBody`, whose tables are those of R124; bytes 7 and 10 do not wrap
in the ranges of R123. -/
theorem fencComputesFrameBytes : Obligations.FencComputesFrameBytes := by
  intro s hlegal
  have hbyte := frameByte_encodeFrame s.st s.host.wcHour s.host.wcMin
  refine ⟨_, execFenc_of_legal hlegal, hbyte 0 (by omega), hbyte 1 (by omega), hbyte 2 (by omega),
    hbyte 3 (by omega), hbyte 4 (by omega), (hbyte 5 (by omega)).trans (flagCode_eq 0x20#8 s.st.on),
    (frameByte_encodeFrame_mode ..).trans ?mode,
    (congrArg BitVec.toNat (hbyte 7 (by omega))).trans ?temperature,
    (hbyte 8 (by omega)).trans ?wideVane, (frameByte_encodeFrame_vane ..).trans ?vane,
    (congrArg BitVec.toNat (frameByte_encodeFrame_clock ..)).trans (clockByte_toNat hlegal.clock),
    hbyte 11 (by omega), hbyte 12 (by omega), hbyte 13 (by omega),
    (frameByte_encodeFrame_econo ..).trans ?econo, (frameByte_encodeFrame_long ..).trans ?long,
    hbyte 16 (by omega), frameByte_encodeFrame_checksum ..⟩
  case mode => exact congrArg₂ (· ||| ·) (by cases s.st.mode <;> rfl) (flagCode_eq _ _)
  case temperature =>
    have hle : (16#8 : Byte) ≤ s.st.temperature := BitVec.le_def.2 hlegal.inRange.temperature.1
    exact BitVec.toNat_sub_of_le hle
  case wideVane => exact congrArg₂ (· ||| ·) (mode2Code_eq_mode2Of _) (by cases s.st.wideVane <;> rfl)
  case vane => simp only [← vaneForced_iff]; split <;> cases s.st.vane <;> rfl
  case econo => simp only [← econoEmitted_iff, flagCode_eq]
  case long => simp only [flagCode_eq]

/-! ### What FENC reads (R125) -/

/-- The clock test and byte 10 read the stored value or the wall clock, never both (R31, R125). -/
theorem clock_congr {cs cs' : ClockSetting} {hour hour' : BitVec 5} {minute minute' : BitVec 6}
    (hauto : cs.auto = cs'.auto) (hvalue : cs.auto = false → cs.value = cs'.value)
    (hwall : cs.auto = true → hour = hour' ∧ minute = minute') :
    clockInRange cs hour minute = clockInRange cs' hour' minute' ∧
      clockByte cs hour minute = clockByte cs' hour' minute' := by
  cases ha : cs.auto with
  | true =>
    obtain ⟨rfl, rfl⟩ := hwall ha
    simp [clockInRange, clockByte, ← hauto, ha]
  | false => simp [clockInRange, clockByte, ← hauto, ha, hvalue ha]

/-- FENC's test and its frame do not depend on `ST.timerProgram` and `ST.lastObservedClock`, and on the clock
only by its range and byte 10 (R125). -/
theorem fenc_congr (st : OperatingState) (p : TimerProgram) (o : LastObservedClock) {cs : ClockSetting}
    {hour hour' : BitVec 5} {minute minute' : BitVec 6}
    (hrange : clockInRange cs hour minute = clockInRange st.clockSetting hour' minute')
    (hbyte : clockByte cs hour minute = clockByte st.clockSetting hour' minute') :
    fencReady { st with timerProgram := p, lastObservedClock := o, clockSetting := cs } hour minute =
        fencReady st hour' minute' ∧
      encodeFrame { st with timerProgram := p, lastObservedClock := o, clockSetting := cs } hour minute =
        encodeFrame st hour' minute' := by
  constructor
  · simp only [fencReady, hrange]
  · simp only [encodeFrame, encodeBody, hbyte]
    rfl

/-- Settles O24: with the same answer to its range tests FENC ends alike in both states, and it writes `F` and
`STATUS` only. -/
theorem fencReadsOnlyItsInputs : Obligations.FencReadsOnlyItsInputs := by
  intro s t hst hauto hvalue hwall
  obtain ⟨hrange, hbyte⟩ := clock_congr hauto hvalue hwall
  have hfenc := fenc_congr t.st s.st.timerProgram s.st.lastObservedClock hrange hbyte
  rw [← hst] at hfenc
  obtain ⟨hready, hframe⟩ := hfenc
  cases h : fencReady s.st s.host.wcHour s.host.wcMin with
  | true =>
    exact ⟨_, _, execFenc_ok h, execFenc_ok (hready.symm.trans h), rfl, fun _ => hframe, rfl, rfl, rfl,
      fun a => by simp⟩
  | false =>
    exact ⟨_, _, execFenc_error h, execFenc_error (hready.symm.trans h), rfl,
      fun h0 => absurd h0 (code_ne_okCode .preconditionViolation), rfl, rfl, rfl, fun a => by simp⟩

/-! ### The invariants in the frame (R127) -/

/-- A fan speed in its range leaves the vane field of byte 9 alone (R90). -/
theorem vaneField_encoded {fan : Byte} (h : fan.toNat ≤ 3) (v : Vane) :
    (fan ||| vaneCode v) &&& 0xF8#8 = vaneCode v := by
  obtain ⟨n, rfl⟩ : ∃ n : Fin 4, fan = BitVec.ofNat 8 n.val :=
    ⟨⟨fan.toNat, by omega⟩, BitVec.eq_of_toNat_eq (by simp)⟩
  revert n; cases v <;> decide

/-- The vane field FENC writes (R124). -/
theorem vaneField_encodeFrame {st : OperatingState} (h : st.InRange) (hour : BitVec 5) (minute : BitVec 6) :
    frameByte (encodeFrame st hour minute) 9 &&& 0xF8#8 =
      vaneCode (if vaneForced st then .auto else st.vane) := by
  rw [frameByte_encodeFrame_vane, vaneField_encoded h.fanSpeed]

/-- The econo bit FENC writes (R124). -/
theorem econoBit_encodeFrame (st : OperatingState) (hour : BitVec 5) (minute : BitVec 6) :
    frameByte (encodeFrame st hour minute) 14 &&& 0x20#8 = flagCode 0x20#8 (econoEmitted st) := by
  rw [frameByte_encodeFrame_econo]
  cases econoEmitted st <;> cases st.cleanMode <;> rfl

/-- The long bit FENC writes (R124). -/
theorem longBit_encodeFrame (st : OperatingState) (hour : BitVec 5) (minute : BitVec 6) :
    frameByte (encodeFrame st hour minute) 15 &&& 0x10#8 = flagCode 0x10#8 st.longMode := by
  rw [frameByte_encodeFrame_long]
  cases st.longMode <;> cases st.plasma <;> rfl

theorem modeOf_encodeFrame (st : OperatingState) (hour : BitVec 5) (minute : BitVec 6) :
    Spec.modeOf (frameByte (encodeFrame st hour minute) 6 &&& 0x38#8) = some st.mode := by
  rw [frameByte_encodeFrame_mode]
  cases st.mode <;> cases st.isee <;> rfl

theorem vaneOf_vaneCode (v : Vane) : Spec.vaneOf (vaneCode v) = some v := by cases v <;> rfl

theorem vaneCode_ne_zero (v : Vane) : vaneCode v ≠ 0x00#8 := by cases v <;> decide

/-- Settles O25: which vane is forced and which econo bit is emitted, in each of the three rows. -/
theorem fencNormalisesInvariants : Obligations.FencNormalisesInvariants := by
  intro s hlegal
  refine ⟨encodeFrame s.st s.host.wcHour s.host.wcMin, execFenc_of_legal hlegal, ?_⟩
  simp only [vaneField_encodeFrame hlegal.inRange, econoBit_encodeFrame, longBit_encodeFrame]
  refine ⟨fun he hm hl => ?_, fun he hm hl => ?_, fun hl => ?_⟩
  · have hforced : vaneForced s.st = true := (vaneForced_iff _).2 (.inl ⟨he, hm⟩)
    have hecono : econoEmitted s.st = true := (econoEmitted_iff _).2 ⟨he, hm, hl⟩
    rw [hforced, hecono]
    exact ⟨rfl, rfl⟩
  · have hforced : vaneForced s.st = false := by simp [vaneForced, hm, hl]
    have hecono : econoEmitted s.st = false := by simp [econoEmitted, hm]
    rw [hforced, hecono]
    exact ⟨vaneOf_vaneCode _, vaneCode_ne_zero _, rfl, modeOf_encodeFrame ..⟩
  · have hforced : vaneForced s.st = true := (vaneForced_iff _).2 (.inr hl)
    have hecono : econoEmitted s.st = false := by simp [econoEmitted, hl]
    rw [hforced, hecono, hl]
    exact ⟨rfl, rfl, rfl⟩

/-! ### FENC then FDEC (R143) -/

/-- Settles O29: FDEC commits the candidate values of the frame FENC wrote, which in a valid state are its own
registers. -/
theorem frameRoundTrip : Obligations.FrameRoundTrip := by
  intro s hlegal
  have hdecode := decodeFrame_encodeFrame s.cfg hlegal.inRange hlegal.clock
  refine ⟨s.afterFenc, _, execFenc_of_legal hlegal, execFdec_ok (s := s.afterFenc) hdecode, rfl, rfl, rfl,
    rfl, rfl, rfl, rfl, rfl, rfl, rfl, rfl, rfl, rfl, rfl, ?_, rfl, ?_, econoEmitted_iff s.st,
    fun hvalid => ⟨vane_of_valid hvalid, econoEmitted_of_valid hvalid⟩⟩
  · exact congrArg _ (frameByte_encodeFrame_clock ..).symm
  · simp only [← vaneForced_iff]
    rfl

end Sys2Proof.Machine

/-!
Proofs of the statements of `40_frame_codec.md`, section 3: FDEC against the list of its checks (R128 to R141,
R216).
-/

namespace Sys2Proof.Machine

/-! ### A sequence of checks and the code it ends with (R216) -/

/-- A sequence of checks ends with this code of R211, and passes only on a value with the property. -/
def Reports {α : Type} (x : Except ErrKind α) (code : Byte) (P : α → Prop) : Prop :=
  match x with
  | .ok a => code = okCode ∧ P a
  | .error k => code = k.code

theorem reports_ok {α : Type} {a : α} {P : α → Prop} (h : P a) : Reports (.ok a) okCode P := ⟨rfl, h⟩

/-- A test that fails on `c` comes before the tests after it. -/
theorem reports_require_bind {α : Type} {b : Bool} {k : ErrKind} {g : Unit → Except ErrKind α}
    {code : Byte} {P : α → Prop} {c : Prop} [Decidable c] (hb : b = true ↔ ¬c)
    (hg : Reports (g ()) code P) : Reports (require b k >>= g) (if c then k.code else code) P := by
  by_cases hc : c
  · rw [Bool.eq_false_iff.2 (fun h => hb.1 h hc), if_pos hc]
    rfl
  · rw [hb.2 hc, if_neg hc]
    exact hg

/-- A lookup that finds nothing on `c` comes before the tests after it. -/
theorem reports_orRaise_bind {α β : Type} {o : Option β} {k : ErrKind} {g : β → Except ErrKind α}
    {code : Byte} {P : α → Prop} {c : Prop} [Decidable c] (ho : o = none ↔ c)
    (hg : ∀ a, o = some a → Reports (g a) code P) :
    Reports (orRaise o k >>= g) (if c then k.code else code) P := by
  cases o with
  | none => rw [if_pos (ho.1 rfl)]; rfl
  | some a => rw [if_neg (fun hc => nomatch ho.2 hc)]; exact hg a rfl

/-! ### The code tables (R86 to R96) -/

theorem lookup_nil {α : Type} {n : Nat} (code : α → BitVec n) (b : BitVec n) :
    lookup [] code b = none := rfl

theorem lookup_cons {α : Type} {n : Nat} (a : α) (keys : List α) (code : α → BitVec n) (b : BitVec n) :
    lookup (a :: keys) code b = if b = code a then some a else lookup keys code b := by
  by_cases h : b = code a
  · rw [if_pos h, h]
    exact List.find?_cons_of_pos (beq_self_eq_true _)
  · rw [if_neg h]
    exact List.find?_cons_of_neg (by simpa using Ne.symm h)

theorem lookup_modeCode (b : Byte) : lookup modeKeys modeCode b = Spec.modeOf b := by
  simp only [modeKeys, lookup_cons, lookup_nil]; rfl

theorem lookup_wideVaneCode (b : Byte) : lookup wideVaneKeys wideVaneCode b = Spec.wideVaneOf b := by
  simp only [wideVaneKeys, lookup_cons, lookup_nil]; rfl

theorem vaneOfCode_eq (b : Byte) : vaneOfCode b = Spec.vaneOf b := by
  simp only [vaneOfCode, vaneKeys, lookup_cons, lookup_nil]; rfl

theorem lookup_timerProgramCode (c : Config) (b : Byte) :
    lookup timerProgramKeys (timerProgramCode c) b = Spec.timerProgramOf c b := by
  simp only [timerProgramKeys, lookup_cons, lookup_nil]; rfl

theorem lookup_powerCode (b : Byte) : lookup powerKeys powerCode b =
    if b = 0x20#8 then some true else if b = 0x00#8 then some false else none := by
  simp only [powerKeys, lookup_cons, lookup_nil]; rfl

theorem lookup_powerCode_eq_none_iff (b : Byte) :
    lookup powerKeys powerCode b = none ↔ b ≠ 0x20#8 ∧ b ≠ 0x00#8 := by
  rw [lookup_powerCode]
  split <;> simp_all

theorem lookup_powerCode_eq_some {b : Byte} {on : Bool} (h : lookup powerKeys powerCode b = some on) :
    on = decide (b = 0x20#8) := by
  rw [lookup_powerCode] at h
  split at h <;> simp_all

/-- Check 2 compares bytes 0 to 4 one by one (R130). -/
theorem preamble_beq_iff (f : Frame) : (f.toList.take 5 == preamble) = true ↔
    frameByte f 0 = 0x23#8 ∧ frameByte f 1 = 0xCB#8 ∧ frameByte f 2 = 0x26#8 ∧ frameByte f 3 = 0x01#8 ∧
      frameByte f 4 = 0x00#8 := by
  have hlist : f.toList.take 5 = (List.range 5).map (frameByte f) := by
    refine List.ext_getElem (by simp) fun i h1 h2 => ?_
    have hi : i < 5 := by simpa using h2
    simp [frameByte_eq f i (by omega)]
  rw [hlist, beq_iff_eq]
  simp [preamble, List.range_succ]

/-! ### The twelve checks (R128 to R140) -/

/-- The candidate values of R128, read from the bytes of a frame and the four table lookups. -/
def Decoded.ofBytes (F : Nat → Byte) (mode : Mode) (wideVane : WideVane) (vane : Vane)
    (program : TimerProgram) : Decoded where
  on := decide (F 5 = 0x20#8)
  isee := (F 6).getLsbD 6
  mode := mode
  temperature := F 7 + 16#8
  wideVane := wideVane
  fanSpeed := F 9 &&& 0x07#8
  vane := vane
  clock := F 10
  tEnd := F 11
  tStart := F 12
  tProg := program
  econo := (F 14).getLsbD 5
  clean := (F 14).getLsbD 2
  longm := (F 15).getLsbD 4
  plasma := (F 15).getLsbD 2

/-- The candidate values are the fields of the frame (R131 to R139). -/
def Decoded.ReadFrom (c : Config) (F : Nat → Byte) (d : Decoded) : Prop :=
  ∃ mode wideVane vane program,
    Spec.modeOf (F 6 &&& 0x38#8) = some mode ∧ Spec.wideVaneOf (F 8 &&& 0xF0#8) = some wideVane ∧
    Spec.vaneOf (F 9 &&& 0xF8#8) = some vane ∧ Spec.timerProgramOf c (F 13) = some program ∧
    d = .ofBytes F mode wideVane vane program

/-! The tests of a byte, as the list of R216 writes their failures. -/

theorem byte_beq_iff (b n : Byte) : (b == n) = true ↔ ¬b ≠ n := by simp

theorem byte_le_iff (b n : Byte) : decide (b ≤ n) = true ↔ ¬n.toNat < b.toNat := by
  simp [BitVec.le_def]

/-- The test of a bit that may be 1 only where an invariant holds (R138, R139). -/
theorem flag_test_iff (b : Bool) {q : Bool} {c : Prop} (h : q = true ↔ ¬c) :
    (!b || q) = true ↔ ¬(b = true ∧ c) := by
  cases b <;> simp [h]

/-- FDEC's checks in R128's order against the list of R216: each step is one test of the list, marked with the
number of its check. -/
theorem decodeFrame_reports (c : Config) (f : Frame) :
    Reports (decodeFrame c f) (Spec.fdecStatus c (frameByte f)) (Decoded.ReadFrom c (frameByte f)) := by
  have hbyte : ∀ i, (h : i < 18) → f[i] = frameByte f i := fun i h => (frameByte_eq f i h).symm
  simp only [decodeFrame, checkChecksum, checkPreamble, checkPower, checkMode, checkTemperature,
    checkWideVane, checkVane, checkTime, checkTimerProgram, checkEcono, checkLong, checkByte16, bind_assoc,
    ok_bind, hbyte, lookup_modeCode, lookup_wideVaneCode, vaneOfCode_eq, lookup_timerProgramCode]
  refine reports_require_bind (by rw [checksumOk_iff, cksum_eq_cksumOf, not_not]) ?_  -- 1
  refine reports_require_bind (by rw [preamble_beq_iff, not_not]) ?_  -- 2
  refine reports_orRaise_bind (lookup_powerCode_eq_none_iff _) fun on hon => ?_  -- 3
  obtain rfl := lookup_powerCode_eq_some hon
  refine reports_require_bind (byte_beq_iff _ _) ?_  -- 4
  refine reports_orRaise_bind Iff.rfl fun mode hmode => ?_
  refine reports_require_bind (byte_beq_iff _ _) ?_  -- 5
  refine reports_require_bind (byte_beq_iff _ _) ?_  -- 6
  refine reports_orRaise_bind Iff.rfl fun wideVane hwideVane => ?_
  refine reports_require_bind (by simp [hmode, mode2Code_eq_mode2Of]) ?_
  refine reports_require_bind (byte_le_iff _ _) ?_  -- 7
  refine reports_orRaise_bind Iff.rfl fun vane hvane => ?_
  refine reports_require_bind (byte_le_iff _ _) ?_  -- 8
  refine reports_require_bind (byte_le_iff _ _) ?_
  refine reports_require_bind (byte_le_iff _ _) ?_
  refine reports_orRaise_bind Iff.rfl fun program hprogram => ?_  -- 9
  refine reports_require_bind (byte_beq_iff _ _) ?_  -- 10
  refine reports_require_bind (flag_test_iff _ (by simp [hmode, hvane])) ?_
  refine reports_require_bind (byte_beq_iff _ _) ?_  -- 11
  refine reports_require_bind (flag_test_iff _ (by simp [hvane])) ?_
  refine reports_require_bind (byte_beq_iff _ _) ?_  -- 12
  exact reports_ok ⟨mode, wideVane, vane, program, hmode, hwideVane, hvane, hprogram, rfl⟩

/-! ### FDEC (R128, R141) -/

/-- The two ends of FDEC with the code of each: the commit of the fields of the frame, or the first failing
check. -/
theorem execFdec_cases (s : State) :
    (∃ d, Spec.fdecStatus s.cfg (frameByte s.frame) = okCode ∧ d.ReadFrom s.cfg (frameByte s.frame) ∧
      decodeFrame s.cfg s.frame = .ok d ∧ exec .fdec s = .next (s.setSt (commit s.st d)).complete) ∨
    (∃ k, Spec.fdecStatus s.cfg (frameByte s.frame) = ErrKind.code k ∧
      decodeFrame s.cfg s.frame = .error k ∧ exec .fdec s = .next (s.raise k .nothing)) := by
  have hreports := decodeFrame_reports s.cfg s.frame
  cases h : decodeFrame s.cfg s.frame with
  | ok d =>
    rw [h] at hreports
    obtain ⟨hcode, hread⟩ := hreports
    exact .inl ⟨d, hcode, hread, rfl, execFdec_ok h⟩
  | error k =>
    rw [h] at hreports
    exact .inr ⟨k, hreports, rfl, execFdec_error h⟩

/-- Settles O26: the end of FDEC is the one whose code the list of checks gives. -/
theorem fdecDecodesFrame : Obligations.FdecDecodesFrame := by
  intro s
  dsimp only
  rcases execFdec_cases s with ⟨d, hcode, hread, -, hexec⟩ | ⟨k, hcode, -, hexec⟩
  · obtain ⟨mode, wideVane, vane, program, hmode, hwideVane, hvane, hprogram, rfl⟩ := hread
    exact ⟨fun h => absurd hcode h,
      fun _ => ⟨mode, wideVane, vane, program, hmode, hwideVane, hvane, hprogram, hexec⟩⟩
  · rw [hcode]
    exact ⟨fun _ => hexec, fun h => absurd h (code_ne_okCode k)⟩

/-- Settles O27: FDEC's status is the list's, and only the commit, whose status is 0, writes more; the commit
has passed the checksum test, which is the only one to report `ChecksumError`. -/
theorem fdecIsAllOrNothing : Obligations.FdecIsAllOrNothing := by
  intro s
  rw [← cksum_eq_cksumOf, ← checksumOk_eq_false_iff]
  rcases execFdec_cases s with ⟨d, hcode, -, hdecode, hexec⟩ | ⟨k, hcode, hdecode, hexec⟩
  · obtain ⟨hok, -⟩ := decodeFrame_eq_ok hdecode
    exact ⟨_, hexec, rfl, hcode.symm, fun h => absurd rfl h,
      iff_of_false (by simp [hok]) (code_ne_okCode .checksumError).symm⟩
  · refine ⟨_, hexec, rfl, hcode.symm, fun _ => rfl, ?_⟩
    rw [← decodeFrame_checksumError_iff hdecode]
    exact code_injective.eq_iff.symm

end Sys2Proof.Machine

/-!
Proofs of the statements of `41_pulse_codec.md`: PENC (R160, R161), the parts of PDEC from the tolerance window
to the header search (R163 to R168, R172), and PDEC with its round trip (R162, R169 to R171, R173, R174).
-/

namespace Sys2Proof.Machine

/-! ### Windows as the statements write them (R163, R164) -/

theorem near_iff_window {v e : Sample} {w : Nat} : near v e w = true ↔ Spec.window v e w :=
  near_iff_abs v e w

theorem near_eq_false_iff_not_window {v e : Sample} {w : Nat} :
    near v e w = false ↔ ¬Spec.window v e w := near_eq_false_iff v e w

section
variable {c : Config} {tol : Nat} {v : Sample}

theorem classifySpace_of_isZeroSpace (h : Spec.isZeroSpace c tol v) : classifySpace c tol v = .ok false := by
  obtain ⟨hz, ho⟩ := h
  rw [classifySpace_eq, if_pos ⟨near_iff_window.2 hz, near_eq_false_iff_not_window.2 ho⟩]

theorem classifySpace_of_isOneSpace (h : Spec.isOneSpace c tol v) : classifySpace c tol v = .ok true := by
  obtain ⟨ho, hz⟩ := h
  rw [classifySpace_eq, if_neg fun hzero => hz (near_iff_window.1 hzero.1),
    if_pos ⟨near_iff_window.2 ho, near_eq_false_iff_not_window.2 hz⟩]

theorem classifySpace_of_neither (hz : ¬Spec.isZeroSpace c tol v) (ho : ¬Spec.isOneSpace c tol v) :
    classifySpace c tol v = .error .badTiming := by
  rw [Spec.isZeroSpace, ← near_iff_window, ← near_eq_false_iff_not_window] at hz
  rw [Spec.isOneSpace, ← near_iff_window, ← near_eq_false_iff_not_window] at ho
  rw [classifySpace_eq, if_neg hz, if_neg ho]

/-- No space is both a zero and a one (R164). -/
theorem not_isOneSpace_of_isZeroSpace (h : Spec.isZeroSpace c tol v) : ¬Spec.isOneSpace c tol v :=
  fun ho => h.2 ho.1

end

/-! ### PENC (R160, R161) -/

/-- Both units of the train PENC leaves are the unit of `F` (R104, R160). -/
theorem sample_afterPenc_unit (s : State) {base p : Nat} (hbase : base = 0 ∨ base = 292) (hp : p < 291) :
    s.afterPenc.sample (base + p) = sampleAt (pulseUnit s.cfg s.frame) p := by
  obtain ⟨hunits, -⟩ := sampleAt_pulseTrain s.cfg s.frame
  rw [sample_afterPenc s (by omega)]
  rcases hbase with rfl | rfl
  · rw [Nat.zero_add]
    exact (hunits p hp).1
  · exact (hunits p hp).2

theorem sample_afterPenc_separator (s : State) : s.afterPenc.sample 291 = s.cfg.tRptSpace := by
  rw [sample_afterPenc s (by decide)]
  exact (sampleAt_pulseTrain s.cfg s.frame).2

section
variable {c : Config} {f : Frame} {x : Sample}

theorem mem_bitCell {b : Bool} (h : x ∈ bitCell c b) :
    x = c.tBitMark ∨ x = c.tZeroSpace ∨ x = c.tOneSpace := by
  cases b with
  | false =>
    have : x = c.tBitMark ∨ x = c.tZeroSpace := by simpa [bitCell] using h
    tauto
  | true =>
    have : x = c.tBitMark ∨ x = c.tOneSpace := by simpa [bitCell] using h
    tauto

theorem mem_pulseUnit (h : x ∈ pulseUnit c f) : x = c.tHdrMark ∨ x = c.tHdrSpace ∨
    (∃ b, x ∈ bitCell c b) ∨ x = c.tRptMark := by
  simp only [pulseUnit, List.mem_append, List.mem_flatMap, List.mem_cons, List.not_mem_nil, or_false] at h
  rcases h with ((h | h) | ⟨b, -, hb⟩) | h
  · exact .inl h
  · exact .inr (.inl h)
  · exact .inr (.inr (.inl ⟨b, hb⟩))
  · exact .inr (.inr (.inr h))

/-- Every sample of a train is one of the seven timing constants (R161). -/
theorem mem_pulseTrain (h : x ∈ pulseTrain c f) :
    x = c.tHdrMark ∨ x = c.tHdrSpace ∨ x = c.tBitMark ∨ x = c.tZeroSpace ∨ x = c.tOneSpace ∨
      x = c.tRptMark ∨ x = c.tRptSpace := by
  have hparts : x ∈ pulseUnit c f ∨ x = c.tRptSpace := by
    simp only [pulseTrain, List.mem_append, List.mem_singleton] at h
    tauto
  rcases hparts with hunit | hsep
  · rcases mem_pulseUnit hunit with h | h | ⟨b, hb⟩ | h
    · simp [h]
    · simp [h]
    · have := mem_bitCell hb
      tauto
    · simp [h]
  · simp [hsep]

end

/-- Settles O30: each unit of the train by the positions of a unit. -/
theorem pencWritesTrain : Obligations.PencWritesTrain := by
  intro s
  obtain ⟨hmark, hspace, hbits, hrpt⟩ := sampleAt_pulseUnit s.cfg s.frame
  refine ⟨s.afterPenc, execPenc_eq_afterPenc s, rfl, fun base hbase => ?_, sample_afterPenc_separator s,
    fun a ha => sample_afterPenc_beyond s ha⟩
  have hsample : ∀ p < 291, s.afterPenc.sample (base + p) = sampleAt (pulseUnit s.cfg s.frame) p :=
    fun p hp => sample_afterPenc_unit s hbase hp
  refine ⟨(hsample 0 (by decide)).trans hmark, (hsample 1 (by decide)).trans hspace, fun k hk => ?_,
    (hsample 290 (by decide)).trans hrpt⟩
  obtain ⟨hbitMark, hbitSpace⟩ := hbits k hk
  rw [Nat.add_assoc, Nat.add_assoc]
  exact ⟨(hsample _ (by omega)).trans hbitMark, (hsample _ (by omega)).trans hbitSpace⟩

/-- Settles O31: both halves are one unit, and a sample of the window is an element of the train. -/
theorem pencTrainIsDuplicated : Obligations.PencTrainIsDuplicated := by
  intro s
  obtain ⟨-, -, -, hrpt⟩ := sampleAt_pulseUnit s.cfg s.frame
  have hslen : s.afterPenc.slen = 583 := rfl
  refine ⟨s.afterPenc, execPenc_eq_afterPenc s, hslen, by rw [hslen], ?_, fun p hp => ?_, fun a ha => ?_, rfl,
    rfl, rfl⟩
  · exact (sample_afterPenc_unit s (base := 292) (p := 290) (.inr rfl) (by decide)).trans hrpt
  · have hfirst := sample_afterPenc_unit s (base := 0) (p := p) (.inl rfl) (by omega)
    rw [Nat.zero_add] at hfirst
    rw [sample_afterPenc_unit s (.inr rfl) (by omega), hfirst]
  · have hlen : a < (pulseTrain s.cfg s.frame).length := by rwa [pulseTrain_length]
    rw [sample_afterPenc s ha, ← getElem_eq_sampleAt hlen]
    exact mem_pulseTrain (List.getElem_mem hlen)

/-! ### The tolerance window and the spaces (R163, R164, R172) -/

/-- Settles O33: each clause is linear arithmetic over `e - w < v < e + w`. -/
theorem toleranceWindowIsOpen : Obligations.ToleranceWindowIsOpen := by
  intro v e w
  refine ⟨?_, ?_, ?_, fun hw => ⟨?_, ?_⟩, fun hw hwe => ⟨?_, ?_⟩⟩
  · rw [tolMatch_iff, abs_lt]; omega
  · rw [tolMatch_iff]; omega
  · rw [← Bool.not_eq_true, tolMatch_iff]; omega
  · rw [tolMatch_iff]; omega
  · rw [← Bool.not_eq_true, tolMatch_iff]; omega
  · rw [tolMatch_iff]; omega
  · rw [← Bool.not_eq_true, tolMatch_iff]; omega

/-- Settles O35: the three cases of R164. -/
theorem spaceClassification : Obligations.SpaceClassification := fun _ _ _ =>
  ⟨classifySpace_of_isZeroSpace, classifySpace_of_isOneSpace, classifySpace_of_neither⟩

/-- Settles O36: at the edge the sample lies in the zero window, and by R7's equivalence not in the one
window; from the edge on it lies outside the zero window. -/
theorem zeroWindowUpperEdge : Obligations.ZeroWindowUpperEdge := by
  intro c tol v htol
  constructor
  · intro hgap hv
    have hzero : near v c.tZeroSpace tol = true := by rw [near_iff]; omega
    have hone : ¬near v c.tOneSpace tol = true := fun hone =>
      (wellSeparatedWindowsAreDisjoint c.tZeroSpace.toNat c.tOneSpace.toNat tol htol).2 hgap v.toNat
        ⟨hzero, hone⟩
    exact classifySpace_of_isZeroSpace ⟨near_iff_window.1 hzero, mt near_iff_window.2 hone⟩
  · intro hv hone
    have hzero : ¬Spec.window v c.tZeroSpace tol := by rw [← near_iff_window, near_iff]; omega
    exact classifySpace_of_neither (fun h => hzero h.1) (fun h => hone h.1)

/-! ### BITDEC (R165) -/

section
variable {c : Config} {tol : Nat} {d : List Sample} {k : Nat}

/-- A good pair passes the mark's test and has a bit (R165). -/
theorem near_and_classifySpace_of_goodPair (h : Spec.goodPair c tol d k) :
    near (sampleAt d (2 * k)) c.tBitMark tol = true ∧
      ∃ b, classifySpace c tol (sampleAt d (2 * k + 1)) = .ok b := by
  obtain ⟨hmark, hzero | hone⟩ := h
  · exact ⟨near_iff_window.2 hmark, false, classifySpace_of_isZeroSpace hzero⟩
  · exact ⟨near_iff_window.2 hmark, true, classifySpace_of_isOneSpace hone⟩

/-- The bit of a good pair is 1 exactly when its space is a one's (R164, R165). -/
theorem classifySpace_of_goodPair {b : Bool} (h : Spec.goodPair c tol d k)
    (hb : b = true ↔ Spec.isOneSpace c tol (sampleAt d (2 * k + 1))) :
    classifySpace c tol (sampleAt d (2 * k + 1)) = .ok b := by
  obtain ⟨-, hzero | hone⟩ := h
  · rw [Bool.eq_false_iff.2 fun h1 => not_isOneSpace_of_isZeroSpace hzero (hb.1 h1)]
    exact classifySpace_of_isZeroSpace hzero
  · rw [hb.2 hone]
    exact classifySpace_of_isOneSpace hone

theorem classifySpace_of_not_goodPair (hmark : Spec.window (sampleAt d (2 * k)) c.tBitMark tol)
    (h : ¬Spec.goodPair c tol d k) :
    classifySpace c tol (sampleAt d (2 * k + 1)) = .error .badTiming :=
  classifySpace_of_neither (fun hzero => h ⟨hmark, .inl hzero⟩) (fun hone => h ⟨hmark, .inr hone⟩)

/-- A failure of the pair loop is BITDEC's outcome: the checksum is tested after all pairs (R165). -/
theorem bitDecode_of_decodePairs_error {kind : ErrKind} (h : decodePairs c tol d = .error kind) :
    bitDecode c tol d = .error kind := by rw [bitDecode, h, error_bind]

/-- Good pairs whose spaces are the bits of a frame decode to these bits (R165). -/
theorem decodePairs_of_goodPairs {f : Frame} (hd : d.length = 288)
    (hgood : ∀ k < 144, Spec.goodPair c tol d k)
    (hbits : ∀ k < 144, frameBit f k = true ↔ Spec.isOneSpace c tol (sampleAt d (2 * k + 1))) :
    decodePairs c tol d = .ok (frameBits f) := by
  have hpairs := decodePairs_ok_of_pairs (c := c) (tol := tol) (d := d) (bit := frameBit f) fun k hk => by
    have hk : k < 144 := by omega
    exact ⟨(near_and_classifySpace_of_goodPair (hgood k hk)).1,
      classifySpace_of_goodPair (hgood k hk) (hbits k hk)⟩
  rw [hpairs, hd, frameBits]

end

/-- The checksum test of a recovered frame, as the statements write it (R120, R165). -/
theorem verifyFrame_eq_cksumOf (f : Frame) :
    verifyFrame f =
      if frameByte f 17 = Spec.cksumOf (frameByte f) then .ok f else .error .checksumError := by
  rw [verifyFrame_eq]
  exact if_congr (by rw [checksumOk_iff, cksum_eq_cksumOf]) rfl rfl

/-- Settles O37: the first bad pair ends the pair loop; with none the bits are those of the frame. -/
theorem bitDecoding : Obligations.BitDecoding := by
  intro c tol d hd
  refine ⟨fun k hk hgood hmark => ?_, fun k hk hgood hmark hbad => ?_, fun hgood f hbits => ?_⟩
  · exact bitDecode_of_decodePairs_error <| decodePairs_badMark (n := k) (by omega)
      (fun j hj => near_and_classifySpace_of_goodPair (hgood j hj)) (near_eq_false_iff_not_window.2 hmark)
  · exact bitDecode_of_decodePairs_error <| decodePairs_badTiming (n := k) (by omega)
      (fun j hj => near_and_classifySpace_of_goodPair (hgood j hj)) (near_iff_window.2 hmark)
      (classifySpace_of_not_goodPair hmark hbad)
  · rw [bitDecode, decodePairs_of_goodPairs hd hgood hbits, ok_bind, frameOfBits_frameBits,
      verifyFrame_eq_cksumOf]

/-! ### DEC291 (R166) -/

/-- Settles O38: the chain of tests, one more of them passed in each clause. -/
theorem unitDecoding : Obligations.UnitDecoding := by
  intro c tol u hu
  simp only [← near_iff_window]
  rw [← slice_eq_map_range (w := u) (o := 2) (n := 288) (by omega), decodeUnit_eq]
  refine ⟨fun hmark => ?_, fun hmark hspace => ?_, fun hmark hspace hrpt => ?_, fun hmark hspace hrpt => ?_⟩
  · simp [hmark]
  · simp [hmark, hspace]
  · simp [hmark, hspace, hrpt]
  · simp [hmark, hspace, hrpt]

/-! ### DEC583 (R167) -/

theorem decodeTrain_of_window {c : Config} {tol : Nat} {t : List Sample}
    (h : Spec.window (sampleAt t 291) c.tRptSpace (2 * tol)) :
    decodeTrain c tol t =
      arbitrate (decodeUnit c tol (slice t 0 291)) (decodeUnit c tol (slice t 292 291)) := by
  rw [decodeTrain_eq, if_pos (near_iff_window.2 h)]

theorem decodeTrain_of_not_window {c : Config} {tol : Nat} {t : List Sample}
    (h : ¬Spec.window (sampleAt t 291) c.tRptSpace (2 * tol)) : decodeTrain c tol t = .error .badTiming := by
  rw [decodeTrain_eq, if_neg (mt near_iff_window.1 h)]

/-- The outcome of a half that failed structurally (R167). -/
theorem exists_ne_checksumError_of_structural {r : Except ErrKind Frame}
    (h : r = .error .badMark ∨ r = .error .badTiming) : ∃ k, r = .error k ∧ k ≠ .checksumError := by
  rcases h with h | h
  · exact ⟨_, h, by decide⟩
  · exact ⟨_, h, by decide⟩

/-- Settles O39: one lemma about the arbiter for each cell of the table. -/
theorem arbiterOutcomeTable : Obligations.ArbiterOutcomeTable := by
  intro c tol t ht
  have hfirst := slice_eq_map_range (w := t) (o := 0) (n := 291) (by omega)
  simp only [Nat.zero_add] at hfirst
  rw [← hfirst, ← slice_eq_map_range (w := t) (o := 292) (n := 291) (by omega)]
  dsimp only
  refine ⟨decodeTrain_of_not_window, fun hsep => ?_, ?_⟩
  · rw [decodeTrain_of_window hsep]
    refine ⟨?_, fun fa fb ha hb heq => ?_, fun fa fb ha hb hne => ?_, fun fa ha hb => ?_, fun fb ha hb => ?_,
      fun ha hb => ?_⟩
    · rintro (ha | hb)
      · rw [ha, arbitrate_checksum_left]
      · rw [hb, arbitrate_checksum_right]
    · rw [ha, hb, arbitrate_ok_ok, if_pos (frame_ext heq)]
    · rw [ha, hb, arbitrate_ok_ok, if_neg fun h => hne fun i _ => by rw [h]]
    · obtain ⟨k, hb, hk⟩ := exists_ne_checksumError_of_structural hb
      rw [ha, hb, arbitrate_ok_structural fa hk]
    · obtain ⟨k, ha, hk⟩ := exists_ne_checksumError_of_structural ha
      rw [ha, hb, arbitrate_structural_ok fb hk]
    · obtain ⟨j, ha, hj⟩ := exists_ne_checksumError_of_structural ha
      obtain ⟨k, hb, hk⟩ := exists_ne_checksumError_of_structural hb
      rw [ha, hb, arbitrate_structural_structural hj hk]
  · rintro k (h | h) <;> exact decodeUnit_error h

/-! ### HSEARCH (R168) -/

theorem PassedOver.of_passedOver {c : Config} {tol : Nat} {w : List Sample} {o : Nat}
    (h : Spec.passedOver c tol w o) : PassedOver c tol w o := by
  rcases h with h | h | h
  · exact .inl (near_eq_false_iff_not_window.2 h)
  · exact .inr ⟨_, h, rfl⟩
  · exact .inr ⟨_, h, rfl⟩

/-- Settles O40: the search reaches the first offset it does not pass over. -/
theorem headerSearchFirstSuccess : Obligations.HeaderSearchFirstSuccess := by
  intro c tol w hw
  refine ⟨fun o f ho hpassed hmark hunit => ?_, fun o ho hpassed hmark hunit => ?_, fun hpassed => ?_⟩
  · exact (headerSearch_first (by omega) (fun o' ho' => .of_passedOver (hpassed o' ho'))
      (near_iff_window.2 hmark)).1 f hunit
  · exact (headerSearch_first (by omega) (fun o' ho' => .of_passedOver (hpassed o' ho'))
      (near_iff_window.2 hmark)).2 hunit
  · exact headerSearch_none fun o ho => .of_passedOver (hpassed o (by omega))

/-! ### PDEC (R162, R169) -/

section
variable {s : State}

/-- PDEC on a window that decodes writes `F` and `STATUS` only (R169). -/
theorem execPdec_writes_frame {f : Frame} (h : decodeWindow s.cfg s.tol.toNat s.window = .ok f) :
    exec .pdec s = .next { s with frame := f, status := 0#8 } := execPdec_ok h

/-- PDEC on a window that does not decode leaves `F` unspecified and reports the kind (R169, R219). -/
theorem execPdec_reports {k : ErrKind} (h : decodeWindow s.cfg s.tol.toNat s.window = .error k) :
    ∃ F d, exec .pdec s = .next { s with frame := F, draws := d, status := k.code } :=
  ⟨_, _, execPdec_error h⟩

end

/-- Settles O32: PDEC's window has the length `SLEN`. -/
theorem pdecDispatchesOnLength : Obligations.PdecDispatchesOnLength := by
  intro s
  dsimp only
  refine ⟨fun f hf => execPdec_writes_frame ?_, fun k hk => execPdec_reports ?_⟩
  · rwa [decodeWindow, window_length, window_eq]
  · rwa [decodeWindow, window_length, window_eq]

/-- Settles O41: a recovered frame passed the checksum test, and both ends of PDEC write `F` and `STATUS`
only. -/
theorem pdecRecoversChecksummedFrame : Obligations.PdecRecoversChecksummedFrame := by
  intro s
  cases h : decodeWindow s.cfg s.tol.toNat s.window with
  | ok f =>
    have hsum : frameByte f 17 = Spec.cksumOf (frameByte f) := by
      rw [(checksumOk_iff f).1 (decodeWindow_checksum h), cksum_eq_cksumOf]
    exact ⟨_, execPdec_ok h, fun _ => hsum, rfl, rfl, rfl, fun a => by simp⟩
  | error k =>
    exact ⟨_, execPdec_error h, fun h0 => absurd h0 (code_ne_okCode k), rfl, rfl, rfl, fun a => by simp⟩

/-! ### Tolerance 0 (R170) -/

/-- With tolerance 0 a unit fails at its header mark (R170). -/
theorem decodeUnit_zero (c : Config) (u : List Sample) : decodeUnit c 0 u = .error .badMark :=
  decodeUnit_no_header (near_zero _ _)

/-- With tolerance 0 a train fails at its separator (R170). -/
theorem decodeTrain_zero (c : Config) (t : List Sample) : decodeTrain c 0 t = .error .badTiming := by
  rw [decodeTrain_eq, Nat.mul_zero, near_zero]
  rfl

/-- With tolerance 0 the search passes over every offset (R170). -/
theorem headerSearch_zero (c : Config) (w : List Sample) : headerSearch c 0 w = .error .noHeaderFound :=
  headerSearch_none fun _ _ => .inl (near_zero _ _)

/-- Settles O42: the sub-operation each length chooses, with tolerance 0. -/
theorem zeroToleranceOutcomes : Obligations.ZeroToleranceOutcomes := by
  intro s htol
  have hzero : s.tol.toNat = 0 := by rw [htol]; rfl
  refine ⟨fun hlen => ?_, fun hlen => ?_, fun hlen hne => ?_⟩
  · exact execPdec_reports (k := .badMark)
      (by rw [decodeWindow_291 (by rw [window_length, hlen]), hzero, decodeUnit_zero])
  · exact execPdec_reports (k := .badTiming)
      (by rw [decodeWindow_583 (by rw [window_length, hlen]), hzero, decodeTrain_zero])
  · exact execPdec_reports (k := .noHeaderFound)
      (by rw [decodeWindow_search (by rwa [window_length]) (by rwa [window_length]), hzero,
        headerSearch_zero])

/-! ### PENC then PDEC (R170, R171) -/

/-- PDEC of a train just sent reports what its window decodes to. -/
theorem execPdec_afterPenc_error {s : State} {k : ErrKind}
    (h : decodeWindow s.cfg s.tol.toNat (pulseTrain s.cfg s.frame) = .error k) :
    ∃ u, exec .pdec s.afterPenc = .next u ∧ u.status = k.code :=
  ⟨_, execPdec_error (s := s.afterPenc) (by rw [window_afterPenc]; exact h), rfl⟩

/-- Settles O43: the train of a frame decodes to the frame, whose checksum PDEC then tests. -/
theorem pulseRoundTrip : Obligations.PulseRoundTrip := by
  intro s h1 h2
  rw [← cksum_eq_cksumOf, ← checksumOk_iff, ← checksumOk_eq_false_iff]
  cases hc : checksumOk s.frame with
  | true =>
    exact ⟨_, _, execPenc_eq_afterPenc s, execPdec_afterPenc h1 h2 hc, fun _ => ⟨rfl, rfl⟩, nofun⟩
  | false =>
    have hw : decodeWindow s.cfg s.tol.toNat (pulseTrain s.cfg s.frame) = .error .checksumError := by
      rw [decodeWindow_pulseTrain_eq_verifyFrame h1 h2, verifyFrame_eq, hc]
      rfl
    obtain ⟨u, hexec, hstatus⟩ := execPdec_afterPenc_error hw
    exact ⟨_, u, execPenc_eq_afterPenc s, hexec, nofun, fun _ => hstatus⟩

/-- With a tolerance above the gap neither unit of a train decodes (R170). -/
theorem decodeWindow_pulseTrain_wide {c : Config} {tol : Nat} (h : Spec.gap c < tol) (f : Frame) :
    decodeWindow c tol (pulseTrain c f) = .error .noValidFrame := by
  rw [decodeWindow_pulseTrain, if_pos (near_self _ (by omega)), decodeUnit_pulseUnit_wide c h,
    arbitrate_structural_structural (by decide) (by decide)]

/-- Settles O44: the separator fails with tolerance 0, both units above the gap. -/
theorem roundTripToleranceLimits : Obligations.RoundTripToleranceLimits := by
  intro s
  constructor
  · intro hzero
    have hw : decodeWindow s.cfg s.tol.toNat (pulseTrain s.cfg s.frame) = .error .badTiming := by
      rw [decodeWindow_583 (pulseTrain_length _ _), hzero, decodeTrain_zero]
    obtain ⟨u, hexec, hstatus⟩ := execPdec_afterPenc_error hw
    exact ⟨_, u, execPenc_eq_afterPenc s, hexec, hstatus⟩
  · intro hwide
    obtain ⟨u, hexec, hstatus⟩ := execPdec_afterPenc_error (decodeWindow_pulseTrain_wide hwide s.frame)
    exact ⟨_, u, execPenc_eq_afterPenc s, hexec, hstatus⟩

/-! ### Two units (R173) -/

/-- Settles O45: the window has the length of a train, and the arbiter compares the two frames. -/
theorem repeatedUnitsReconcile : Obligations.RepeatedUnitsReconcile := by
  intro s u v sep f g hwindow hu hv hf hg hsep
  have hw : decodeWindow s.cfg s.tol.toNat s.window = if f = g then .ok f else .error .repeatMismatch := by
    rw [window_eq, hwindow, decodeWindow_583 (by simp [hu, hv]), decodeTrain_append _ _ _ hu hv,
      if_pos (near_iff_window.2 hsep), hf, hg, arbitrate_ok_ok]
  exact ⟨fun h => execPdec_writes_frame (hw.trans (if_pos h)),
    fun h => execPdec_reports (hw.trans (if_neg h))⟩

/-! ### A unit behind junk (R174) -/

section
variable {c : Config} {tol : Nat} {junk u : List Sample} {f : Frame}

theorem sampleAt_slice {w : List Sample} {o n p : Nat} (h : p < n) :
    sampleAt (slice w o n) p = sampleAt w (o + p) := by
  simp [slice, sampleAt, List.getD_eq_getElem?_getD, h]

theorem near_sampleAt_junk (hjunk : ∀ x ∈ junk, ¬Spec.window x c.tHdrMark (2 * tol)) {o : Nat}
    (ho : o < junk.length) : near (sampleAt (junk ++ u) o) c.tHdrMark (2 * tol) = false := by
  rw [sampleAt_append_left ho, ← getElem_eq_sampleAt ho]
  exact near_eq_false_iff_not_window.2 (hjunk _ (List.getElem_mem ho))

/-- The search passes over the junk and finds the unit (R174). -/
theorem headerSearch_junk (hu : u.length = 291) (hf : decodeUnit c tol u = .ok f)
    (hjunk : ∀ x ∈ junk, ¬Spec.window x c.tHdrMark (2 * tol)) :
    headerSearch c tol (junk ++ u) = .ok f := by
  have hmark : near (sampleAt (junk ++ u) junk.length) c.tHdrMark (2 * tol) = true := by
    rw [sampleAt_append_right le_rfl, Nat.sub_self]
    exact decodeUnit_header hf
  refine (headerSearch_first (by simp [hu]) (fun o ho => .inl (near_sampleAt_junk hjunk ho)) hmark).1 f ?_
  rw [slice_append_right rfl hu, hf]

/-- With any count of junk but 292 the window has not the length of a train (R174). -/
theorem decodeWindow_junk (hu : u.length = 291) (hf : decodeUnit c tol u = .ok f)
    (hjunk : ∀ x ∈ junk, ¬Spec.window x c.tHdrMark (2 * tol)) (hlen : junk.length ≠ 292) :
    decodeWindow c tol (junk ++ u) = .ok f := by
  cases junk with
  | nil => rw [List.nil_append, decodeWindow_291 hu, hf]
  | cons x xs =>
    rw [List.length_cons] at hlen
    rw [decodeWindow_search (by simp [hu]) (by rw [List.length_append, hu, List.length_cons]; omega),
      headerSearch_junk hu hf hjunk]

/-- 292 junk samples and the unit are taken for a train, whose first half has no header mark (R174). -/
theorem decodeTrain_junk (hu : u.length = 291) (hf : decodeUnit c tol u = .ok f)
    (hjunk : ∀ x ∈ junk, ¬Spec.window x c.tHdrMark (2 * tol)) (hlen : junk.length = 292)
    (hsep : Spec.window (sampleAt junk 291) c.tRptSpace (2 * tol)) :
    decodeTrain c tol (junk ++ u) = .ok f := by
  have hfirst : decodeUnit c tol (slice (junk ++ u) 0 291) = .error .badMark := by
    refine decodeUnit_no_header ?_
    rw [sampleAt_slice (by decide)]
    exact near_sampleAt_junk hjunk (by omega)
  rw [← sampleAt_append_left (v := u) (by omega)] at hsep
  rw [decodeTrain_of_window hsep, hfirst, slice_append_right hlen hu, hf,
    arbitrate_structural_ok f (by decide)]

end

/-- Settles O46: for every count but 292 by the search, for 292 by the arbiter. -/
theorem headerSearchSkipsJunk : Obligations.HeaderSearchSkipsJunk := by
  intro s junk u f hwindow hu hf hjunk
  rw [← window_eq] at hwindow
  have htrain (hlen : junk.length = 292) :
      decodeWindow s.cfg s.tol.toNat s.window = decodeTrain s.cfg s.tol.toNat (junk ++ u) := by
    rw [hwindow, decodeWindow_583 (by simp [hlen, hu])]
  refine ⟨fun hlen => ?_, fun hlen hsep => ?_, fun hlen hsep => ?_⟩
  · exact execPdec_writes_frame (by rw [hwindow, decodeWindow_junk hu hf hjunk hlen])
  · exact execPdec_writes_frame (by rw [htrain hlen, decodeTrain_junk hu hf hjunk hlen hsep])
  · rw [← sampleAt_append_left (v := u) (by omega)] at hsep
    exact execPdec_reports (k := .badTiming) (by rw [htrain hlen, decodeTrain_of_not_window hsep])

end Sys2Proof.Machine

/-!
Proofs of the statements of `42_control_and_pseudo.md`: NOP (R200), the `CMD` write (R204) and the
pseudo-operations TX and RX (R202, R203).
-/

namespace Sys2Proof.Machine

/-! ### NOP and the `CMD` write (R200, R204) -/

/-- Settles O17: `State.complete` is a write of 0 to `STATUS`. -/
theorem nopClearsStatus : Obligations.NopClearsStatus := execNop_eq

/-- Settles O5, by the law of the step and that of a decodable word. -/
theorem stepRunsDecodedCommand : Obligations.StepRunsDecodedCommand := by
  intro s w rest i hpending hdecode
  rw [step_cons hpending, hostMove_command, issue_ok hdecode]
  rfl

/-! ### TX and RX (R202, R203) -/

/-- The step of the conditional `CMD` write after the host has read an error: only the move is gone (R108). -/
theorem step_commandIfOk_of_failed {s : State} (h : s.status ≠ okCode) (i : Instr) (rest : List HostMove) :
    step (s.withPending (.commandIfOk (encode i) :: rest)) = .next (s.withPending rest) :=
  step_commandIfOk_of_error (s := s.withPending (.commandIfOk (encode i) :: rest)) rfl h

/-- Settles O54: the commands run on `s` itself, and none of them sees the host's list. -/
theorem transmitSequence : Obligations.TransmitSequence := by
  refine fun s => ⟨fun hlegal => ?_, fun hnot => ?_⟩
  · have hfenc : exec .fenc s = .next s.afterFenc := execFenc_of_legal hlegal
    have hpenc : exec .penc s.afterFenc = .next s.afterFenc.afterPenc := execPenc_eq_afterPenc _
    exact ⟨_, _, _, _, step_command_of_exec hfenc _, step_commandIfOk_of_exec rfl hpenc _,
      exec_withPending hfenc [], exec_withPending hpenc [], rfl, rfl, rfl, rfl, rfl⟩
  · have hfenc := execFenc_of_not_legal hnot
    have hfailed : (s.raise .preconditionViolation .frame).status ≠ okCode :=
      code_ne_okCode .preconditionViolation
    exact ⟨_, _, step_command_of_exec hfenc _, step_commandIfOk_of_failed hfailed _ _, rfl, rfl, rfl,
      State.raise_sample _ _ _⟩

/-- Settles O55: PDEC leaves the registers and, when it ends `Ok`, a checksummed frame; FDEC leaves the frame
and, when it fails, all but `STATUS`, and reports `ChecksumError` only on a wrong checksum. -/
theorem receiveSequence : Obligations.ReceiveSequence := by
  intro s
  obtain ⟨u, hpdec, hsum, hst, -, -, -⟩ := pdecRecoversChecksummedFrame s
  obtain ⟨v, hfdec, hframe, -, hkept, hchecksum⟩ := fdecIsAllOrNothing u
  have hfirst := step_command_of_exec hpdec [.commandIfOk (encode .fdec)]
  have hu := exec_withPending hpdec []
  have hv := exec_withPending hfdec []
  by_cases hok : u.status = okCode
  · refine ⟨_, _, _, _, hfirst, step_commandIfOk_of_exec hok hfdec [], hu, hv, fun _ _ => ⟨rfl, hframe⟩,
      fun hne => absurd hok hne, fun _ hne => ?_⟩
    have hvst : v.st = u.st := by rw [hkept hne]
    exact ⟨hframe, hvst.trans hst, rfl, fun h7 => hchecksum.2 h7 (hsum hok)⟩
  · exact ⟨_, _, _, _, hfirst, step_commandIfOk_of_failed hok _ [], hu, hv, fun h0 => absurd h0 hok,
      fun _ => ⟨hst, rfl⟩, fun h0 => absurd h0 hok⟩

end Sys2Proof.Machine

/-!
Proofs of the statements of `60_exceptions.md`: the codes of the outcomes (R211), the outcomes of each command
(R214), and what a failing command changes (R219).
-/

namespace Sys2Proof.Machine

/-! ### The codes (R211) -/

/-- Settles O11: the equations of `ErrKind.code`. -/
theorem errorKindCodes : Obligations.ErrorKindCodes :=
  ⟨rfl, rfl, rfl, rfl, rfl, rfl, rfl, rfl, rfl, rfl, rfl, rfl, rfl, rfl⟩

/-! ### What a failing command changes (R219) -/

/-- A command whose `STATUS.ERR` is not 0 ended by `raise`, with a destination only where it writes `F`. -/
theorem exec_raises {i : Instr} {s t : State} (h : exec i s = .next t) (hfail : t.status ≠ okCode) :
    ∃ k d, t = s.raise k d ∧ (i = .ckver ∨ i = .fdec → d = .nothing) := by
  rcases exec_cases h with ⟨rfl, h⟩ | ⟨rfl, h⟩ | ⟨rfl, -, h⟩ | ⟨rfl, -, h⟩ | ⟨rfl, -, h⟩ | ⟨rfl, -, h⟩ |
    ⟨d, rfl, -, h⟩ | ⟨k, rfl, -, h⟩ | ⟨rfl, h⟩ | ⟨f, rfl, -, h⟩ | ⟨k, rfl, -, h⟩ <;> cases h
  · exact absurd rfl hfail
  · exact absurd rfl hfail
  · exact absurd rfl hfail
  · exact ⟨_, _, rfl, fun _ => rfl⟩
  · exact absurd rfl hfail
  · exact ⟨_, _, rfl, by simp⟩
  · exact absurd rfl hfail
  · exact ⟨_, _, rfl, fun _ => rfl⟩
  · exact absurd rfl hfail
  · exact absurd rfl hfail
  · exact ⟨_, _, rfl, by simp⟩

@[simp] theorem State.raise_status (s : State) (k : ErrKind) (d : Destination) :
    (s.raise k d).status = k.code := by
  cases d <;> rfl

/-- The end of a failing command writes `STATUS` and at most `F`; `draws` is the model's own counter. -/
theorem State.raise_eq_status_frame_draws (s : State) (k : ErrKind) (d : Destination) :
    s.raise k d = { s with status := k.code, frame := (s.raise k d).frame, draws := (s.raise k d).draws } := by
  cases d <;> rfl

/-- Settles O14: a failing command ends by `raise`, and so does the issue of a reserved word. -/
theorem failingCommandEffects : Obligations.FailingCommandEffects := by
  refine ⟨fun i s t h hfail => ?_, fun s t w e hdecode h => ?_⟩
  · obtain ⟨k, d, rfl, hd⟩ := exec_raises h hfail
    rw [State.raise_status]
    refine ⟨⟨k, rfl⟩, s.raise_eq_status_frame_draws k d, fun hi => ?_⟩
    rw [hd hi, State.raise_nothing_frame]
  · rw [issue_error hdecode] at h
    cases h
    exact ⟨rfl, rfl⟩

/-! ### The outcomes of FDEC (R214, R216) -/

/-- The codes FDEC can report (R214). -/
def fdecCodes : List Byte := [0#8, 7#8, 1#8, 2#8, 3#8, 4#8]

/-- A line of the list of checks reports one of the codes if its own code and the lines after it do. -/
theorem ite_mem_fdecCodes {c : Prop} [Decidable c] {a b : Byte} (ha : a ∈ fdecCodes) (hb : b ∈ fdecCodes) :
    (if c then a else b) ∈ fdecCodes :=
  iteInduction (motive := (· ∈ fdecCodes)) (fun _ => ha) fun _ => hb

theorem fdecStatus_mem_fdecCodes (c : Config) (F : Nat → Byte) : Spec.fdecStatus c F ∈ fdecCodes := by
  unfold Spec.fdecStatus
  iterate 20 refine ite_mem_fdecCodes (by decide) ?_
  decide

theorem execFdec_status {s t : State} (h : exec .fdec s = .next t) :
    t.status = Spec.fdecStatus s.cfg (frameByte s.frame) := by
  obtain ⟨u, hexec, -, hstatus, -⟩ := fdecIsAllOrNothing s
  cases hexec.symm.trans h
  exact hstatus

/-! ### The outcomes of PDEC by `SLEN` (R214) -/

theorem sampleAt_window (s : State) {i : Nat} (h : i < s.slen) : sampleAt s.window i = s.sample i := by
  simp [window_eq, sampleAt, h]

/-- The train reports `BadTiming` only for its separator, and else what the arbiter reports (R167, R214). -/
theorem decodeTrain_eq_error {c : Config} {tol : Nat} {t : List Sample} {k : ErrKind}
    (h : decodeTrain c tol t = .error k) :
    (k = .checksumError ∨ k = .repeatMismatch ∨ k = .noValidFrame) ∨
      (k = .badTiming ∧ ¬Spec.window (sampleAt t 291) c.tRptSpace (2 * tol)) := by
  by_cases hsep : Spec.window (sampleAt t 291) c.tRptSpace (2 * tol)
  · rw [decodeTrain_of_window hsep] at h
    exact .inl (arbitrate_eq_error h)
  · rw [decodeTrain_of_not_window hsep] at h
    cases h
    exact .inr ⟨rfl, hsep⟩

section
variable {s t : State}

/-- PDEC's `STATUS.ERR` is 0, or the code of the kind its window fails with. -/
theorem execPdec_status (h : exec .pdec s = .next t) :
    t.status = okCode ∨ ∃ k, decodeWindow s.cfg s.tol.toNat s.window = .error k ∧ t.status = k.code := by
  cases hw : decodeWindow s.cfg s.tol.toNat s.window with
  | ok f =>
    cases (execPdec_ok hw).symm.trans h
    exact .inl rfl
  | error k =>
    cases (execPdec_error hw).symm.trans h
    exact .inr ⟨k, rfl, rfl⟩

theorem execPdec_status_short (h : exec .pdec s = .next t) (hlen : s.slen ≤ 290) : t.status = 11#8 := by
  cases (execPdec_error (decodeWindow_short (by rwa [window_length]))).symm.trans h
  rfl

theorem execPdec_status_unit (h : exec .pdec s = .next t) (hlen : s.slen = 291) :
    t.status = 0#8 ∨ t.status = 5#8 ∨ t.status = 6#8 ∨ t.status = 7#8 := by
  refine (execPdec_status h).imp_right fun ⟨k, hw, hk⟩ => ?_
  rw [decodeWindow_291 (by rw [window_length, hlen])] at hw
  rw [hk]
  exact (decodeUnit_error hw).imp (congrArg _) (.imp (congrArg _) (congrArg _))

theorem execPdec_status_train (h : exec .pdec s = .next t) (hlen : s.slen = 583) :
    t.status = 0#8 ∨ t.status = 7#8 ∨ t.status = 8#8 ∨ t.status = 10#8 ∨
      (t.status = 6#8 ∧ ¬Spec.window (s.sample 291) s.cfg.tRptSpace (2 * s.tol.toNat)) := by
  refine (execPdec_status h).imp_right fun ⟨k, hw, hk⟩ => ?_
  rw [decodeWindow_583 (by rw [window_length, hlen])] at hw
  rw [hk, ← sampleAt_window s (by omega)]
  rcases decodeTrain_eq_error hw with (rfl | rfl | rfl) | ⟨rfl, hsep⟩
  · exact .inl rfl
  · exact .inr (.inl rfl)
  · exact .inr (.inr (.inl rfl))
  · exact .inr (.inr (.inr ⟨rfl, hsep⟩))

theorem execPdec_status_search (h : exec .pdec s = .next t) (hlen : 292 ≤ s.slen) (hne : s.slen ≠ 583) :
    t.status = 0#8 ∨ t.status = 7#8 ∨ t.status = 9#8 := by
  refine (execPdec_status h).imp_right fun ⟨k, hw, hk⟩ => ?_
  rw [decodeWindow_search (by rwa [window_length]) (by rwa [window_length])] at hw
  rw [hk]
  exact (searchOffsets_eq_error hw).imp (congrArg _) (congrArg _)

end

/-! ### The outcomes of every command (R214) -/

theorem exec_status_of_infallible {i : Instr} {s t : State} (hi : i = .nop ∨ i = .ckgen ∨ i = .penc)
    (h : exec i s = .next t) : t.status = okCode := by
  rcases hi with rfl | rfl | rfl
  · cases (execNop_eq s).symm.trans h
    rfl
  · cases (execCkgen_eq s).symm.trans h
    rfl
  · cases (execPenc_eq s).symm.trans h
    rfl

theorem execCkver_status {s t : State} (h : exec .ckver s = .next t) :
    t.status = 0#8 ∨ t.status = 7#8 := by
  rw [execCkver_eq] at h
  split at h <;> cases h
  · exact .inl rfl
  · exact .inr rfl

theorem execFenc_status {s t : State} (h : exec .fenc s = .next t) :
    t.status = 0#8 ∨ t.status = 12#8 := by
  by_cases hlegal : s.FencLegal
  · cases (execFenc_of_legal hlegal).symm.trans h
    exact .inl rfl
  · cases (execFenc_of_not_legal hlegal).symm.trans h
    exact .inr rfl

/-- Settles O13: one lemma for each row of the table. -/
theorem outcomesPerCommand : Obligations.OutcomesPerCommand := by
  refine ⟨fun _ _ _ => exec_status_of_infallible, fun _ _ => execCkver_status, fun _ _ => execFenc_status,
    fun s t h => ?_, fun _ _ => execPdec_status_short, fun _ _ => execPdec_status_unit,
    fun _ _ => execPdec_status_train, fun _ _ => execPdec_status_search, fun s t w e hdecode h => ?_⟩
  · rw [execFdec_status h]
    simpa [fdecCodes] using fdecStatus_mem_fdecCodes s.cfg (frameByte s.frame)
  · exact (failingCommandEffects.2 s t w e hdecode h).1

end Sys2Proof.Machine

/-!
Proofs of the statements of `70_reset_and_hazards.md`: reset as a move of the host (R240; log 14).
-/

namespace Sys2Proof.Machine

/-! ### Reset by the host (R240) -/

@[simp] theorem hostMove_reset (s : State) :
    hostMove .reset s = .next (State.resetWith s.cfg s.draws s.host) := rfl

/-- Settles O2: taking the move off the host's list changes neither the configuration nor the next draw. -/
theorem hostResetGivesResetState : Obligations.HostResetGivesResetState := by
  intro s rest h
  rw [step_cons h, hostMove_reset, State.withPending_cfg, State.withPending_draws, State.withPending_host]

end Sys2Proof.Machine
